-- ==== Sys2Proof/Word.lean ====
section
/-! DEFINITION. The word types of the CORE: a nibble, a byte and the 20-bit request word (rules R9, R51).
A port word has `PORT_W` bits, a parameter, and is held as a Nat (Machine/State.lean). -/

namespace Sys2Proof

/-- "a 4-bit half of a byte" (R9). -/
abbrev Nibble := BitVec 4

/-- A Command/Data Byte, a row, a column (R10). -/
abbrev Byte := BitVec 8

/-- The request word `REQ20` (R51). -/
abbrev Request := BitVec 20

end Sys2Proof
end

