-- ==== Sys2Proof/Config.lean ====
section
/-! DEFINITION. What an implementation fixes (rule R7) and the one free value of the model (rule R76).
`Params` holds the parameters R7 marks "decided" or "OPEN", which a model takes as an argument; their defaults, and the
values R7 marks "source", are in Machine/Defaults.lean. -/

namespace Sys2Proof

/-- The parameters of R7 with status decided or OPEN. `F_CLK` is left out: no rule reads it (R7, D2). -/
structure Params where
  /-- `PORT_W`, width of the port word. -/
  portW : Nat
  /-- `DATA_SHIFT`, port bit of data line 0. -/
  dataShift : Nat
  /-- `POLL_BUDGET`, start of the poll iteration counter. -/
  pollBudget : Nat
  /-- `CNT_W`, width of that counter. -/
  cntW : Nat
  /-- `T_INIT3_MS`. -/
  tInit3Ms : Nat
  /-- `T_INIT4_MS`. -/
  tInit4Ms : Nat
  /-- `T_POLL_SETUP_US`. -/
  tPollSetupUs : Nat
  /-- `T_POLL_GAP_US`. -/
  tPollGapUs : Nat
  /-- `T_POLL_RETRY_US`. -/
  tPollRetryUs : Nat
  /-- `NIB_8BIT`. -/
  nib8bit : Nibble
  /-- `NIB_4BIT`. -/
  nib4bit : Nibble
  /-- `CMD_ENTRY_INC`. -/
  cmdEntryInc : Byte
  /-- `CMD_DISPLAY_CURSOR_ON`. -/
  cmdDisplayCursorOn : Byte
  /-- `CMD_FUNC_2LINE_5X10`. -/
  cmdFunc2Line5x10 : Byte
  /-- `CMD_CURSOR_OFF`. -/
  cmdCursorOff : Byte
  /-- `CMD_CLEAR`. -/
  cmdClear : Byte
  /-- `CMD_DISPLAY_ON`. -/
  cmdDisplayOn : Byte
  /-- `CMD_HOME`. -/
  cmdHome : Byte
  /-- `CMD_DISPLAY_OFF`, used only by the pseudo-operation DISPLAY_OFF. -/
  cmdDisplayOff : Byte
  deriving DecidableEq, Repr

/-- FREE VALUE (R76, D29, U11; log 3): the port word of the `n`-th `Sample` step where the state lists no answer for it. The
environment chooses it "under no law", so it has no body. -/
opaque Config.freePortIn : Nat → Nat

end Sys2Proof
end

