-- ==== Sys2Proof/Syntax.lean ====
section
/-! DEFINITION. The host operations: one constructor per row of spec/opcode_table.json (rules R54, R56). Every request has both
operand fields (R51); an operation that does not use a field still latches it (R52, vectors V46 and V85), so every
constructor carries `a` (bits 15:8) and `b` (bits 7:0). -/

namespace Sys2Proof

inductive Instr where
  /-- 0x0 NOP (R100). -/
  | nop (a b : Byte)
  /-- 0x1 INIT (R104). -/
  | init (a b : Byte)
  /-- 0x2 START (R106). -/
  | start (a b : Byte)
  /-- 0x3 ENABLE (R107). -/
  | enable (a b : Byte)
  /-- 0x4 WRCMD (R102): `a` is the byte. -/
  | wrcmd (a b : Byte)
  /-- 0x5 WRDATA (R103): `a` is the byte. -/
  | wrdata (a b : Byte)
  /-- 0x6 SETPOS (R120): `a` is the row, `b` the column. -/
  | setpos (a b : Byte)
  /-- 0x7, reserved (R56). -/
  | reserved7 (a b : Byte)
  /-- 0x8 POLL (R92). -/
  | poll (a b : Byte)
  /-- 0x9 WRNIBC (R81): `a[3:0]` is the nibble. -/
  | wrnibc (a b : Byte)
  /-- 0xA WRNIBD (R82): `a[3:0]` is the nibble. -/
  | wrnibd (a b : Byte)
  /-- 0xB, reserved (R56). -/
  | reservedB (a b : Byte)
  /-- 0xC, reserved (R56). -/
  | reservedC (a b : Byte)
  /-- 0xD, reserved (R56). -/
  | reservedD (a b : Byte)
  /-- 0xE, reserved (R56). -/
  | reservedE (a b : Byte)
  /-- 0xF, reserved (R56). -/
  | reservedF (a b : Byte)
  deriving DecidableEq, Repr

end Sys2Proof
end

