-- ==== Sys2Proof/WellFormed.lean ====
section
/-! DEFINITION. What the spec gives a meaning to: which configurations (rules R7, R37, R77, R78, R90; D34, U18), which words are
request words (R51), which strings are strings (R135). An instruction term is well formed for every operand value: "any value
is accepted" (R56), so there is no check on `Instr`. -/

namespace Sys2Proof

/-- The parameter space of R7: a configuration outside it "is refused (no meaning)" (R37, R90). -/
def Params.wf (c : Params) : Bool :=
  decide (4 ≤ c.portW) && decide (c.dataShift + 4 ≤ c.portW) &&
  decide (1 ≤ c.cntW) && decide (1 ≤ c.pollBudget) && decide (c.pollBudget < 2 ^ c.cntW) &&
  decide (1 ≤ c.tInit3Ms) && decide (c.tInit3Ms ≤ 40) && decide (1 ≤ c.tInit4Ms) && decide (c.tInit4Ms ≤ 40) &&
  decide (c.tPollSetupUs ≤ 10) && decide (c.tPollGapUs ≤ 10) && decide (c.tPollRetryUs ≤ 10)

/-- A request word has 20 bits (R51). -/
def wordInRange (w : Nat) : Bool := decide (w < 2 ^ 20)

/-- A string ends with a byte 0x00 (R135); one without is refused (U3). -/
def terminated (s : List Byte) : Bool := s.contains 0#8

end Sys2Proof
end

