-- ==== Sys2Proof/Decode.lean ====
section
/-! DEFINITION. The request word and back (rules R51, R54, R56). The 20-bit word is one parallel word on the port `req_word`: no
byte order exists. -/

namespace Sys2Proof

/-- The operation with operation code `op` (R54; the reserved codes R56). -/
def ofFields (op : Nibble) (a b : Byte) : Instr :=
  match op.toNat with
  | 0x0 => .nop a b
  | 0x1 => .init a b
  | 0x2 => .start a b
  | 0x3 => .enable a b
  | 0x4 => .wrcmd a b
  | 0x5 => .wrdata a b
  | 0x6 => .setpos a b
  | 0x7 => .reserved7 a b
  | 0x8 => .poll a b
  | 0x9 => .wrnibc a b
  | 0xA => .wrnibd a b
  | 0xB => .reservedB a b
  | 0xC => .reservedC a b
  | 0xD => .reservedD a b
  | 0xE => .reservedE a b
  | _ => .reservedF a b  -- 0xF: the one value of four bits that is left

/-- Decoding of a request word: total, since all sixteen codes are accepted (R51, R54, R56). -/
def decode (w : Request) : Instr :=
  ofFields (w.extractLsb' 16 4) (w.extractLsb' 8 8) (w.extractLsb' 0 8)

/-- Why a number is not a request. -/
inductive DecodeReject where
  /-- It has a bit above bit 19: the request port has 20 wires (R50, R51). -/
  | widerThanRequestWord
  deriving DecidableEq, Repr

/-- Decoding of any number, rejecting by name what is no request word. -/
def decodeNat (w : Nat) : Except DecodeReject Instr :=
  if wordInRange w then .ok (decode (BitVec.ofNat 20 w)) else .error .widerThanRequestWord

/-- What the host asks: bit 0 of `w` is bit 0 of the request word, and bits from `nbits` on are 0 (log 13). -/
def decodeTableWord (nbits w : Nat) : Option Instr :=
  match decodeNat (w % 2 ^ nbits) with
  | .ok i => some i
  | .error _ => none

/-- Field `op` (R54, R56). -/
def Instr.opcode : Instr → Nibble
  | .nop _ _ => 0x0
  | .init _ _ => 0x1
  | .start _ _ => 0x2
  | .enable _ _ => 0x3
  | .wrcmd _ _ => 0x4
  | .wrdata _ _ => 0x5
  | .setpos _ _ => 0x6
  | .reserved7 _ _ => 0x7
  | .poll _ _ => 0x8
  | .wrnibc _ _ => 0x9
  | .wrnibd _ _ => 0xA
  | .reservedB _ _ => 0xB
  | .reservedC _ _ => 0xC
  | .reservedD _ _ => 0xD
  | .reservedE _ _ => 0xE
  | .reservedF _ _ => 0xF

/-- Field `a` (R51). -/
def Instr.fieldA : Instr → Byte
  | .nop a _ | .init a _ | .start a _ | .enable a _ | .wrcmd a _ | .wrdata a _ | .setpos a _ | .reserved7 a _
  | .poll a _ | .wrnibc a _ | .wrnibd a _ | .reservedB a _ | .reservedC a _ | .reservedD a _ | .reservedE a _
  | .reservedF a _ => a

/-- Field `b` (R51). -/
def Instr.fieldB : Instr → Byte
  | .nop _ b | .init _ b | .start _ b | .enable _ b | .wrcmd _ b | .wrdata _ b | .setpos _ b | .reserved7 _ b
  | .poll _ b | .wrnibc _ b | .wrnibd _ b | .reservedB _ b | .reservedC _ b | .reservedD _ b | .reservedE _ b
  | .reservedF _ b => b

/-- The request word of an operation: `{op, a, b}` (R51, R60). -/
def encode (i : Instr) : Request := i.opcode ++ (i.fieldA ++ i.fieldB)

/-- A reserved operation code (R56). -/
def Instr.isReserved : Instr → Bool
  | .reserved7 _ _ | .reservedB _ _ | .reservedC _ _ | .reservedD _ _ | .reservedE _ _ | .reservedF _ _ => true
  | .nop _ _ | .init _ _ | .start _ _ | .enable _ _ | .wrcmd _ _ | .wrdata _ _ | .setpos _ _ | .poll _ _
  | .wrnibc _ _ | .wrnibd _ _ => false

end Sys2Proof
end

