-- ==== Sys2Proof/Machine/Defaults.lean ====
section
/-! DEFINITION. The values of rule R7: those with status "source" as constants (log 8), the defaults of the others in
`Params.default` (log 6). -/

namespace Sys2Proof

namespace Config

/-- `T_SETUP_US`, source (R7, R80). -/
def tSetupUs : Nat := 2
/-- `T_PULSE_US`, source (R7, R80). -/
def tPulseUs : Nat := 1
/-- `T_BOOT_MS`, source (R7, R104). -/
def tBootMs : Nat := 40
/-- `T_INIT1_MS`, source (R7, R104, C1: 5 before 15). -/
def tInit1Ms : Nat := 5
/-- `T_INIT2_MS`, source (R7, R104, C1). -/
def tInit2Ms : Nat := 15

/-- `ROW_BASE`, source (R7, R39, R120), for a row 0 to 3; `none` is "outside 0..3" (R120). -/
def rowBase (row : Byte) : Option Byte :=
  match row.toNat with
  | 0 => some 0x80
  | 1 => some 0xC0
  | 2 => some 0x94
  | 3 => some 0xD4
  | _ => none

end Config

/-- The defaults of R7. PRESUMED (log 6): `POLL_BUDGET` is OPEN and 2000 is only the suggested value (G11); the nibbles and
commands are the spec's general-knowledge defaults (G1 to G10). -/
def Params.default : Params where
  portW := 16
  dataShift := 0
  pollBudget := 2000
  cntW := 32
  tInit3Ms := 1
  tInit4Ms := 5
  tPollSetupUs := 1
  tPollGapUs := 0
  tPollRetryUs := 10
  nib8bit := 0x3
  nib4bit := 0x2
  cmdEntryInc := 0x06
  cmdDisplayCursorOn := 0x0E
  cmdFunc2Line5x10 := 0x2C
  cmdCursorOff := 0x0C
  cmdClear := 0x01
  cmdDisplayOn := 0x0C
  cmdHome := 0x02
  cmdDisplayOff := 0x08

end Sys2Proof
end

