-- ==== Sys2Proof/Machine/State.lean ====
section
/-! DEFINITION. The state of the CORE (10_state.md), the bus steps as data (40_bus_steps.md), the sequencer position (R13, R14)
and reset (R160). -/

namespace Sys2Proof.Machine

/-- Direction of the four data lines (R23): `output` is 1, `input` is 0. -/
inductive Dir where
  | input
  | output
  deriving DecidableEq, Repr

/-- The eight bus steps (R70 to R78). -/
inductive BusStep where
  | setRS (v : Bool)
  | setRW (v : Bool)
  | setE (v : Bool)
  | writeNibble (v : Nibble)
  | setDir (d : Dir)
  | sample
  | delayUs (n : Nat)
  | delayMs (n : Nat)
  deriving DecidableEq, Repr

/-- The trace tokens of R8: a bus step performed, and for a `Sample` the data nibble that was read. -/
inductive Token where
  /-- `RS=v` -/
  | rs (v : Bool)
  /-- `RW=v` -/
  | rw (v : Bool)
  /-- `E=v` -/
  | e (v : Bool)
  /-- `D=h` -/
  | d (h : Nibble)
  /-- `DIR=out`, `DIR=in` -/
  | dir (d : Dir)
  /-- `S:h` -/
  | s (h : Nibble)
  /-- `us(n)` -/
  | us (n : Nat)
  /-- `ms(n)` -/
  | ms (n : Nat)
  deriving DecidableEq, Repr

/-- One line of an operation's rule: a bus step, or an action of the sequencer that is no bus step. -/
inductive Item where
  /-- A bus step. -/
  | bus (b : BusStep)
  /-- `CNT <- POLL_BUDGET` (R91 step 5). -/
  | loadCnt
  /-- R91 step 6i: the retry delay, if `FLAG` is nonzero. -/
  | retryIfBusy
  /-- R91 steps 6j and 6k: decrement, then leave the loop or run the body again. -/
  | nextIteration
  /-- R91 step 9: `STATUS[0] <- 1` if `FLAG` is nonzero. -/
  | outcome
  /-- `INITIALIZED <- 1` inside START (R106 step 1). -/
  | setInitialized
  /-- `STATUS[1] <- 1` (R120). -/
  | badRow
  /-- `STATUS[2] <- 1` (R56). -/
  | illegal
  deriving DecidableEq, Repr

/-- The session flags an operation's rule sets "at completion" (R53, R104, R106, R107). -/
structure AtCompletion where
  setsInitialized : Bool
  setsEnabled : Bool
  deriving DecidableEq, Repr

/-- The sequencer position (R13): `Idle` or `Run(op, k)`. A running position also holds what is left of the operation's rule
and its completion flags; "which bus step is the k-th" (R14) is the first bus step of `rest` (log 11). -/
inductive Seq where
  | idle
  | run (op : Nibble) (k : Nat) (rest : List Item) (fin : AtCompletion)
  deriving DecidableEq, Repr

/-- The state: the CORE's own (10_state.md section 1), its configuration (R7), its inputs (R50) and the observation (R5). -/
structure State where
  /-- The parameters of R7. Nothing writes them. -/
  cfg : Params
  /-- `OP` (R10). -/
  op : Nibble
  /-- `A` (R10). -/
  a : Byte
  /-- `B` (R10). -/
  b : Byte
  /-- `SEQ` (R13). -/
  seq : Seq
  /-- `FLAG` (R15). -/
  flag : Bool
  /-- `STATUS` (R16): bit 0 TIMEOUT, bit 1 BADROW, bit 2 ILLEGAL. -/
  status : BitVec 3
  /-- `INITIALIZED` (R17). -/
  initialized : Bool
  /-- `ENABLED` (R18). -/
  enabled : Bool
  /-- `RS` (R20). -/
  rs : Bool
  /-- `RW` (R21). -/
  rw : Bool
  /-- `E` (R22). -/
  e : Bool
  /-- `DIR` (R23). -/
  dir : Dir
  /-- `PORT_OUT` (R24), a word of `PORT_W` bits (log 7). -/
  portOut : Nat
  /-- `CNT` (R26), `CNT_W` bits (log 7). -/
  cnt : Nat
  /-- Input `rst` (R50, R160), taken at the next event (log 15). -/
  rst : Bool
  /-- The requests the host presents, the next one first (R50, R52, R60; log 2). -/
  requests : List Request
  /-- What PORT_IN holds at the coming `Sample` steps, the next one first (R25, R76; log 3). -/
  portIn : List Nat
  /-- How many samples have been taken: the argument of the free value (log 3). -/
  draws : Nat
  /-- The environment's changes of the foreign bits of PORT_OUT before the coming bus steps, the next one first; `none` leaves
  them alone (R24, U12; log 4). -/
  foreign : List (Option Nat)
  /-- The trace (R5, R8), oldest token first (log 16). -/
  trace : List Token
  /-- `rsp_status` at each completion event (R53), oldest first (log 16). -/
  responses : List (BitVec 3)
  /-- Whether the completion event of the request accepted last has occurred (R53, R181; log 16, 23). -/
  answered : Bool
  deriving DecidableEq, Repr

/-- Reasons to stop with a fault: none. "Nothing in the CORE is treated as fault" (93 Part 1; R144). -/
inductive Fault where
  deriving DecidableEq, Repr

/-- Reasons for having no meaning. -/
inductive Refusal where
  /-- Raised by exec's arm of an instruction that has no meaning yet (none here). Safe. -/
  | notModelled (mnemonic : String)
  /-- Raised by every meaning, by step and by tick where the configuration is outside the parameter space: "the model refuses
  the configuration (no meaning)" (D34, R37, R90, U18). Safe. -/
  | configurationOutsideParameterSpace
  /-- Raised by the expansion of PRINTSTR on a string with no zero byte (R135, U3). Safe. -/
  | unterminatedString
  deriving DecidableEq, Repr

/-- The machine right after reset: the values of R160 (10_state.md section 1), the parameters at their defaults (log 6), the
foreign bits of PORT_OUT at 0 (DESIGN CHOICE, log 5), no input waiting, nothing observed. -/
def State.reset : State where
  cfg := Params.default
  op := 0
  a := 0
  b := 0
  seq := .idle
  flag := false
  status := 0
  initialized := false
  enabled := false
  rs := false
  rw := false
  e := false
  dir := .input
  portOut := 0
  cnt := 0
  rst := false
  requests := []
  portIn := []
  draws := 0
  foreign := []
  trace := []
  responses := []
  answered := false

end Sys2Proof.Machine
end

