-- ==== Sys2Proof/Machine/Flags.lean ====
section
/-! DEFINITION. STATUS, its bits and the session flags (rules R16 to R18, R53, R140, R144). -/

namespace Sys2Proof.Machine

/-- The three outcome causes (R140). -/
inductive Cause where
  | timeout
  | badRow
  | illegal
  deriving DecidableEq, Repr

/-- The STATUS word with only the bit of the cause set (R140). -/
def Cause.bit : Cause → BitVec 3
  | .timeout => 0b001#3
  | .badRow => 0b010#3
  | .illegal => 0b100#3

/-- Recording an outcome: the bit is set and nothing else happens: "saves nothing, changes no mode, masks nothing, uses no
stack and transfers control nowhere" (R144). The bits are only ever set within one operation (R16). -/
def recordOutcome (c : Cause) (s : State) : State := { s with status := s.status ||| c.bit }

/-- R91 step 9: `TimedOut` exactly when the poll left with the flag nonzero (R93). -/
def recordPollOutcome (s : State) : State := if s.flag then recordOutcome .timeout s else s

/-- STATUS bit 0, TIMEOUT. -/
def State.timeout (s : State) : Bool := s.status.getLsbD 0

/-- STATUS bit 1, BADROW. -/
def State.badRow (s : State) : Bool := s.status.getLsbD 1

/-- STATUS bit 2, ILLEGAL. -/
def State.illegal (s : State) : Bool := s.status.getLsbD 2

/-- The session flags an operation sets at completion (R53); none is ever cleared (R17, R18). -/
def setSession (f : AtCompletion) (s : State) : State :=
  { s with initialized := s.initialized || f.setsInitialized, enabled := s.enabled || f.setsEnabled }

/-- No session flag at completion. -/
def AtCompletion.none : AtCompletion := ⟨false, false⟩

end Sys2Proof.Machine
end

