-- ==== Sys2Proof/Machine/Operands.lean ====
section
/-! DEFINITION. The operand forms (rule R55), the port primitives (R31 to R33) and how a port word is cut. -/

namespace Sys2Proof.Machine

/-- The first nibble sent of a byte (R35, R55; C5: unsigned). -/
def highNibble (b : Byte) : Nibble := b.extractLsb' 4 4

/-- The second nibble sent of a byte (R35, R55). -/
def lowNibble (b : Byte) : Nibble := b.extractLsb' 0 4

/-- `high<<4 | low` (R36). -/
def rejoin (high low : Nibble) : Byte := (high.setWidth 8 <<< 4) ||| low.setWidth 8

/-- The nibble operand of WRNIBC and WRNIBD, `A[3:0]` (R55). -/
def nibbleOperand (a : Byte) : Nibble := a.extractLsb' 0 4

/-- The cursor command `(ROW_BASE[A] + B) mod 256`; `none` for a row outside 0..3 (R55, R120). -/
def cursorCommand (row column : Byte) : Option Byte :=
  (Config.rowBase row).map (· + column)

/-- `DATA_MASK`, `0xF << DATA_SHIFT` as a PORT_W-bit value (R7). -/
def dataMask (c : Params) : BitVec c.portW := BitVec.ofNat c.portW 0xF <<< c.dataShift

/-- `BF_BIT`, the port bit of the busy flag (R7, R31). -/
def bfBit (c : Params) : Nat := c.dataShift + 3

/-- `PortWriteNibble(v)` (R32): `(PORT_OUT & ~DATA_MASK) | (zext_PORT_W(v) << DATA_SHIFT)`. -/
def portWriteNibble (c : Params) (port : Nat) (v : Nibble) : Nat :=
  ((BitVec.ofNat c.portW port &&& ~~~(dataMask c)) ||| (v.setWidth c.portW <<< c.dataShift)).toNat

/-- The data field of a port word, `w[DATA_SHIFT+3:DATA_SHIFT]` (R31). -/
def dataField (c : Params) (w : Nat) : Nibble := (BitVec.ofNat c.portW w).extractLsb' c.dataShift 4

/-- The data field of PORT_OUT (R24). -/
def State.dataOut (s : State) : Nibble := dataField s.cfg s.portOut

/-- `PortReadNibble()` on the word PORT_IN holds (R33). -/
def portReadNibble (c : Params) (portIn : Nat) : Nibble := dataField c portIn

/-- The busy flag in the nibble read, data line 3 (R15, R76). -/
def busyOf (n : Nibble) : Bool := n.getLsbD 3

/-- The foreign bits of a port word, those outside DATA_MASK (R24, R31). -/
def foreignBits (c : Params) (w : Nat) : Nat := (BitVec.ofNat c.portW w &&& ~~~(dataMask c)).toNat

/-- The environment writes the foreign bits and never the data field (R24, D30). -/
def mergeForeign (c : Params) (port w : Nat) : Nat :=
  ((BitVec.ofNat c.portW w &&& ~~~(dataMask c)) ||| (BitVec.ofNat c.portW port &&& dataMask c)).toNat

end Sys2Proof.Machine
end

