-- ==== Sys2Proof/Machine/Ops.lean ====
section
/-! DEFINITION. The shared operations: the bus steps (40_bus_steps.md), the routines `Transfer`, `Poll` and `WriteByte` as lists of
items (R80, R91, R101), acceptance (R52), completion (R53), reset (R160), an operation run from acceptance to completion. -/

namespace Sys2Proof.Machine

/-! ### What the environment does -/

/-- The port word of the `i`-th coming `Sample`: the listed answer, else the free value (R76; log 3). -/
def State.answer (s : State) (i : Nat) : Nat :=
  match s.portIn[i]? with
  | some w => w
  | none => Config.freePortIn (s.draws + i)

/-- The environment's move before a bus step: it may change the foreign bits of PORT_OUT, nothing else (R24, U12; log 4). -/
def envMove (s : State) : State :=
  match s.foreign with
  | [] => s
  | none :: rest => { s with foreign := rest }
  | some w :: rest => { s with foreign := rest, portOut := mergeForeign s.cfg s.portOut w }

/-! ### Bus steps -/

/-- The effect of a bus step on the state (R70 to R78). -/
def busEffect (b : BusStep) (s : State) : State :=
  match b with
  | .setRS v => { s with rs := v }
  | .setRW v => { s with rw := v }
  | .setE v => { s with e := v }
  | .writeNibble v => { s with portOut := portWriteNibble s.cfg s.portOut v }
  | .setDir d => { s with dir := d }
  | .sample =>
    { s with flag := busyOf (portReadNibble s.cfg (s.answer 0)), portIn := s.portIn.tail, draws := s.draws + 1 }
  | .delayUs _ => s
  | .delayMs _ => s

/-- The trace token of a bus step performed in a state (R8). -/
def busToken (b : BusStep) (s : State) : Token :=
  match b with
  | .setRS v => .rs v
  | .setRW v => .rw v
  | .setE v => .e v
  | .writeNibble v => .d v
  | .setDir d => .dir d
  | .sample => .s (portReadNibble s.cfg (s.answer 0))
  | .delayUs n => .us n
  | .delayMs n => .ms n

/-- The trace grows by one token (R5, R8). -/
def record (tok : Token) (s : State) : State := { s with trace := s.trace ++ [tok] }

/-- One bus step: the environment's move on the foreign bits, then the step, recorded in the trace (R5, R24, R70 to R79). -/
def perform (b : BusStep) (s : State) : State :=
  record (busToken b (envMove s)) (busEffect b (envMove s))

/-- Bus steps in the order listed, each completed before the next begins (R41). -/
def performs (bs : List BusStep) (s : State) : State := bs.foldl (fun s b => perform b s) s

/-! ### The poll loop (R91 step 6) -/

/-- Steps 6a to 6h. -/
def pollPulses (c : Params) : List BusStep :=
  [.setE true, .delayUs c.tPollSetupUs, .sample, .setE false,
   .delayUs c.tPollGapUs, .setE true, .delayUs c.tPollSetupUs, .setE false]

/-- Step 6i. -/
def retryDelay (s : State) : State := if s.flag then perform (.delayUs s.cfg.tPollRetryUs) s else s

/-- Step 6j. `CNT` is never 0 here in an operation (R148). -/
def decrementCnt (s : State) : State := { s with cnt := s.cnt - 1 }

/-- Step 6k: "if FLAG = 0 or CNT = 0 then leave the loop". -/
def leavesLoop (s : State) : Bool := !s.flag || s.cnt == 0

/-- One pass of the loop body, steps 6a to 6j. -/
def pollIteration (s : State) : State := decrementCnt (retryDelay (performs (pollPulses s.cfg) s))

/-- The passes that are left, at most `fuel` of them. -/
def pollPasses : Nat → State → State
  | 0, s => s
  | fuel + 1, s => if leavesLoop (pollIteration s) then pollIteration s else pollPasses fuel (pollIteration s)

/-- Steps 6j and 6k, then the passes still to come; `CNT` bounds their number (R97). -/
def finishLoop (s : State) : State :=
  if leavesLoop (decrementCnt s) then decrementCnt s else pollPasses (decrementCnt s).cnt (decrementCnt s)

/-! ### Items -/

/-- What one item does, run to its end. -/
def runItem (it : Item) (s : State) : State :=
  match it with
  | .bus b => perform b s
  | .loadCnt => { s with cnt := s.cfg.pollBudget }
  | .retryIfBusy => retryDelay s
  | .nextIteration => finishLoop s
  | .outcome => recordPollOutcome s
  | .setInitialized => { s with initialized := true }
  | .badRow => recordOutcome .badRow s
  | .illegal => recordOutcome .illegal s

/-- Items in order. -/
def runItems (items : List Item) (s : State) : State := items.foldl (fun s it => runItem it s) s

/-! ### Routines -/

/-- `Transfer(rs, n)` (R80). -/
def transferSteps (rs : Bool) (n : Nibble) : List BusStep :=
  [.setRS rs, .setRW false, .delayUs Config.tSetupUs, .writeNibble n, .setE true, .delayUs Config.tPulseUs, .setE false]

/-- `Transfer(rs, n)` as items. -/
def transfer (rs : Bool) (n : Nibble) : List Item := (transferSteps rs n).map .bus

/-- The body of the poll loop, steps 6a to 6k. -/
def pollBody (c : Params) : List Item := (pollPulses c).map .bus ++ [.retryIfBusy, .nextIteration]

/-- `Poll()` (R91). The loop tests after its body, so the first pass stands in the list. -/
def pollItems (c : Params) : List Item :=
  [.bus (.writeNibble 0), .bus (.setDir .input), .bus (.setRS false), .bus (.setRW true), .loadCnt] ++
  pollBody c ++
  [.bus (.setRW false), .bus (.setDir .output), .outcome]

/-- `WriteByte(rs, b)` (R101): a poll, then the high nibble, then the low nibble. -/
def writeByte (c : Params) (rs : Bool) (b : Byte) : List Item :=
  pollItems c ++ transfer rs (highNibble b) ++ transfer rs (lowNibble b)

/-- Steps 1 to 10 of R104: the direction, the boot delay and the four unpolled mode-select transfers. -/
def modeSelect (c : Params) : List Item :=
  [.bus (.setDir .output), .bus (.delayMs Config.tBootMs)] ++
  transfer false c.nib8bit ++ [.bus (.delayMs Config.tInit1Ms)] ++
  transfer false c.nib8bit ++ [.bus (.delayMs Config.tInit2Ms)] ++
  transfer false c.nib8bit ++ [.bus (.delayMs c.tInit3Ms)] ++
  transfer false c.nib4bit ++ [.bus (.delayMs c.tInit4Ms)]

/-- The seven command bytes of R104 steps 11 to 17, in order. -/
def initBytes (c : Params) : List Byte :=
  [c.cmdEntryInc, c.cmdDisplayCursorOn, c.cmdFunc2Line5x10, c.cmdCursorOff, c.cmdClear, c.cmdDisplayOn, c.cmdHome]

/-- Steps 1 to 17 of R104. -/
def initSequence (c : Params) : List Item := modeSelect c ++ (initBytes c).flatMap (writeByte c false)

/-! ### Acceptance, completion, reset -/

/-- What an operation's rule gives: the latched request fields, the items, the flags set at completion. -/
structure Rule where
  op : Nibble
  a : Byte
  b : Byte
  items : List Item
  fin : AtCompletion
  deriving DecidableEq, Repr

/-- Acceptance, one atomic event (R52). -/
def accept (r : Rule) (s : State) : State :=
  { s with op := r.op, a := r.a, b := r.b, status := 0, seq := .run r.op 0 r.items r.fin, answered := false }

/-- Completion, one atomic event (R53): session flags, `SEQ <- Idle`, the response. -/
def complete (f : AtCompletion) (s : State) : State :=
  { setSession f s with seq := .idle, responses := s.responses ++ [s.status], answered := true }

/-- The operation in progress, if any, run to its completion (R180). -/
def finish (s : State) : State :=
  match s.seq with
  | .idle => s
  | .run _ _ rest fin => complete fin (runItems rest s)

/-- The reset event (R160, R161): every state element of the CORE to its reset value at once, the foreign bits of PORT_OUT not
touched; an operation in progress is abandoned with no completion and no response. The configuration, what the host
and the environment hold, and what was observed are not the CORE's state and stay (log 15). -/
def applyReset (s : State) : State :=
  { s with
    op := 0, a := 0, b := 0, seq := .idle, flag := false, status := 0, initialized := false, enabled := false,
    rs := false, rw := false, e := false, dir := .input, portOut := portWriteNibble s.cfg s.portOut 0, cnt := 0,
    rst := false }

/-- Going on from a next state; a fault or a refusal ends the run. -/
def andThen (o : Host.Outcome State Fault Refusal) (f : State → Host.Outcome State Fault Refusal) :
    Host.Outcome State Fault Refusal :=
  match o with
  | .next s => f s
  | .fault r => .fault r
  | .refused r => .refused r

/-- An operation from its acceptance to its completion. Where an operation is still in progress the request is held until
that one completes (R52; log 14); a configuration outside the parameter space is refused (D34). -/
def operate (rule : State → Rule) (s : State) : Host.Outcome State Fault Refusal :=
  if s.cfg.wf then .next (finish (accept (rule (finish s)) (finish s)))
  else .refused .configurationOutsideParameterSpace

end Sys2Proof.Machine
end

