-- ==== Sys2Proof/Machine/Cursor.lean ====
section
/-! DEFINITION. Cursor Addressing: SETPOS (44_cursor_addressing.md). -/

namespace Sys2Proof.Machine

/-- SETPOS (R120): a valid row sends the cursor command; any other row only sets `STATUS[1]` (R121). The column is not checked
(R122). -/
def ruleSetpos (a b : Byte) (s : State) : Rule :=
  ⟨0x6, a, b,
   match cursorCommand a b with
   | some cmd => writeByte s.cfg false cmd
   | none => [.badRow],
   .none⟩

/-- SETPOS (R120). -/
def execSetpos (a b : Byte) (s : State) : Host.Outcome State Fault Refusal := operate (ruleSetpos a b) s

end Sys2Proof.Machine
end

