-- ==== Sys2Proof/Machine/Poller.lean ====
section
/-! DEFINITION. Busy-Flag Poller: POLL (42_busy_poller.md). -/

namespace Sys2Proof.Machine

/-- POLL (R92): `Poll()`. -/
def rulePoll (a b : Byte) (s : State) : Rule := ⟨0x8, a, b, pollItems s.cfg, .none⟩

/-- POLL (R92). -/
def execPoll (a b : Byte) (s : State) : Host.Outcome State Fault Refusal := operate (rulePoll a b) s

end Sys2Proof.Machine
end

