-- ==== Sys2Proof/Machine/Protocol.lean ====
section
/-! DEFINITION. Protocol/Command Layer: NOP, WRCMD, WRDATA, INIT, START, ENABLE (43_protocol_commands.md). -/

namespace Sys2Proof.Machine

/-- NOP (R100): nothing but acceptance and completion. -/
def ruleNop (a b : Byte) (_ : State) : Rule := ⟨0x0, a, b, [], .none⟩

/-- NOP (R100). -/
def execNop (a b : Byte) (s : State) : Host.Outcome State Fault Refusal := operate (ruleNop a b) s

/-- WRCMD (R102): `WriteByte(0, A)`. -/
def ruleWrcmd (a b : Byte) (s : State) : Rule := ⟨0x4, a, b, writeByte s.cfg false a, .none⟩

/-- WRCMD (R102). -/
def execWrcmd (a b : Byte) (s : State) : Host.Outcome State Fault Refusal := operate (ruleWrcmd a b) s

/-- WRDATA (R103): `WriteByte(1, A)`. -/
def ruleWrdata (a b : Byte) (s : State) : Rule := ⟨0x5, a, b, writeByte s.cfg true a, .none⟩

/-- WRDATA (R103). -/
def execWrdata (a b : Byte) (s : State) : Host.Outcome State Fault Refusal := operate (ruleWrdata a b) s

/-- INIT (R104): the sequence, and at completion `INITIALIZED <- 1`. It does not read `INITIALIZED`. -/
def ruleInit (a b : Byte) (s : State) : Rule := ⟨0x1, a, b, initSequence s.cfg, ⟨true, false⟩⟩

/-- INIT (R104). -/
def execInit (a b : Byte) (s : State) : Host.Outcome State Fault Refusal := operate (ruleInit a b) s

/-- START (R106): the sequence and `INITIALIZED <- 1` if `INITIALIZED = 0` at the start of the operation, then the display on;
at completion `ENABLED <- 1`. -/
def ruleStart (a b : Byte) (s : State) : Rule :=
  ⟨0x2, a, b,
   (if s.initialized then [] else initSequence s.cfg ++ [.setInitialized]) ++ writeByte s.cfg false s.cfg.cmdDisplayOn,
   ⟨false, true⟩⟩

/-- START (R106). -/
def execStart (a b : Byte) (s : State) : Host.Outcome State Fault Refusal := operate (ruleStart a b) s

/-- ENABLE (R107): the display on, and at completion `ENABLED <- 1`. -/
def ruleEnable (a b : Byte) (s : State) : Rule :=
  ⟨0x3, a, b, writeByte s.cfg false s.cfg.cmdDisplayOn, ⟨false, true⟩⟩

/-- ENABLE (R107). -/
def execEnable (a b : Byte) (s : State) : Host.Outcome State Fault Refusal := operate (ruleEnable a b) s

end Sys2Proof.Machine
end

