-- ==== Sys2Proof/Machine/Reserved.lean ====
section
/-! DEFINITION. The reserved operation codes 0x7 and 0xB to 0xF (R56): accepted, no bus step, no session flag, `STATUS[2]` set,
completed. "It does not trap and does not hang." -/

namespace Sys2Proof.Machine

/-- What every reserved code does (R56). -/
def reservedRule (op : Nibble) (a b : Byte) : Rule := ⟨op, a, b, [.illegal], .none⟩

/-- 0x7 (R56). -/
def ruleReserved7 (a b : Byte) (_ : State) : Rule := reservedRule 0x7 a b

/-- 0x7 (R56). -/
def execReserved7 (a b : Byte) (s : State) : Host.Outcome State Fault Refusal := operate (ruleReserved7 a b) s

/-- 0xB (R56). -/
def ruleReservedB (a b : Byte) (_ : State) : Rule := reservedRule 0xB a b

/-- 0xB (R56). -/
def execReservedB (a b : Byte) (s : State) : Host.Outcome State Fault Refusal := operate (ruleReservedB a b) s

/-- 0xC (R56). -/
def ruleReservedC (a b : Byte) (_ : State) : Rule := reservedRule 0xC a b

/-- 0xC (R56). -/
def execReservedC (a b : Byte) (s : State) : Host.Outcome State Fault Refusal := operate (ruleReservedC a b) s

/-- 0xD (R56). -/
def ruleReservedD (a b : Byte) (_ : State) : Rule := reservedRule 0xD a b

/-- 0xD (R56). -/
def execReservedD (a b : Byte) (s : State) : Host.Outcome State Fault Refusal := operate (ruleReservedD a b) s

/-- 0xE (R56). -/
def ruleReservedE (a b : Byte) (_ : State) : Rule := reservedRule 0xE a b

/-- 0xE (R56). -/
def execReservedE (a b : Byte) (s : State) : Host.Outcome State Fault Refusal := operate (ruleReservedE a b) s

/-- 0xF (R56). -/
def ruleReservedF (a b : Byte) (_ : State) : Rule := reservedRule 0xF a b

/-- 0xF (R56). -/
def execReservedF (a b : Byte) (s : State) : Host.Outcome State Fault Refusal := operate (ruleReservedF a b) s

end Sys2Proof.Machine
end

