-- ==== Sys2Proof/Machine/Transport.lean ====
section
/-! DEFINITION. Nibble Transport: WRNIBC, WRNIBD (41_nibble_transport.md). -/

namespace Sys2Proof.Machine

/-- WRNIBC (R81): `Transfer(0, A[3:0])`. -/
def ruleWrnibc (a b : Byte) (_ : State) : Rule := ⟨0x9, a, b, transfer false (nibbleOperand a), .none⟩

/-- WRNIBC (R81). -/
def execWrnibc (a b : Byte) (s : State) : Host.Outcome State Fault Refusal := operate (ruleWrnibc a b) s

/-- WRNIBD (R82): `Transfer(1, A[3:0])`. -/
def ruleWrnibd (a b : Byte) (_ : State) : Rule := ⟨0xA, a, b, transfer true (nibbleOperand a), .none⟩

/-- WRNIBD (R82). -/
def execWrnibd (a b : Byte) (s : State) : Host.Outcome State Fault Refusal := operate (ruleWrnibd a b) s

end Sys2Proof.Machine
end

