-- ==== Sys2Proof/Machine/Dispatch.lean ====
section
/-! DEFINITION. One arm per operation of spec/opcode_table.json. -/

namespace Sys2Proof.Machine

def exec (i : Instr) (s : State) : Host.Outcome State Fault Refusal :=
  match i with
  | .nop a b => Sys2Proof.Machine.execNop a b s
  | .init a b => Sys2Proof.Machine.execInit a b s
  | .start a b => Sys2Proof.Machine.execStart a b s
  | .enable a b => Sys2Proof.Machine.execEnable a b s
  | .wrcmd a b => Sys2Proof.Machine.execWrcmd a b s
  | .wrdata a b => Sys2Proof.Machine.execWrdata a b s
  | .setpos a b => Sys2Proof.Machine.execSetpos a b s
  | .reserved7 a b => Sys2Proof.Machine.execReserved7 a b s
  | .poll a b => Sys2Proof.Machine.execPoll a b s
  | .wrnibc a b => Sys2Proof.Machine.execWrnibc a b s
  | .wrnibd a b => Sys2Proof.Machine.execWrnibd a b s
  | .reservedB a b => Sys2Proof.Machine.execReservedB a b s
  | .reservedC a b => Sys2Proof.Machine.execReservedC a b s
  | .reservedD a b => Sys2Proof.Machine.execReservedD a b s
  | .reservedE a b => Sys2Proof.Machine.execReservedE a b s
  | .reservedF a b => Sys2Proof.Machine.execReservedF a b s

end Sys2Proof.Machine
end

