-- ==== Sys2Proof/Machine/Step.lean ====
section
/-! DEFINITION. `step` runs the CORE to its next event that a host sees (R52, R53, R160, R162): a reset, the completion of the
operation in progress, or the acceptance of the next request and its operation up to its completion; with no request
presented the CORE waits. Machine/Sequencer.lean has the same machine one bus step at a time (log 1). -/

namespace Sys2Proof.Machine

/-- One step of the machine. -/
def step (s : State) : Host.Outcome State Fault Refusal :=
  if s.cfg.wf then
    if s.rst then .next (applyReset s)
    else
      match s.seq with
      | .idle =>
        match s.requests with
        | [] => .next s
        | w :: ws => exec (decode w) { s with requests := ws }
      | .run _ _ _ _ => .next (finish s)
  else .refused .configurationOutsideParameterSpace

/-- `s` with the request word `w` presented where `step` takes its next request (log 2, 13): the CORE idle, no reset waiting,
the request first in the host's list. -/
def State.withFetchWord (s : State) (nbits w : Nat) : State :=
  { s with rst := false, seq := .idle, requests := BitVec.ofNat 20 (w % 2 ^ nbits) :: s.requests }

end Sys2Proof.Machine
end

