-- ==== Sys2Proof/Machine/Sequencer.lean ====
section
/-! DEFINITION. The CORE one event at a time (R14, R41): `tick` takes one event, which is a reset, an acceptance, one line of the
running operation's rule, or a completion. The environment acts between ticks by changing the inputs (`raiseReset`,
`present`, `changeForeignBits`). `Machine.step` (Step.lean) is this machine run to the next completion. -/

namespace Sys2Proof.Machine

/-- The rule of an operation in the state in which it is accepted. -/
def ruleOf (i : Instr) (s : State) : Rule :=
  match i with
  | .nop a b => ruleNop a b s
  | .init a b => ruleInit a b s
  | .start a b => ruleStart a b s
  | .enable a b => ruleEnable a b s
  | .wrcmd a b => ruleWrcmd a b s
  | .wrdata a b => ruleWrdata a b s
  | .setpos a b => ruleSetpos a b s
  | .reserved7 a b => ruleReserved7 a b s
  | .poll a b => rulePoll a b s
  | .wrnibc a b => ruleWrnibc a b s
  | .wrnibd a b => ruleWrnibd a b s
  | .reservedB a b => ruleReservedB a b s
  | .reservedC a b => ruleReservedC a b s
  | .reservedD a b => ruleReservedD a b s
  | .reservedE a b => ruleReservedE a b s
  | .reservedF a b => ruleReservedF a b s

/-- One line of the running operation's rule. A bus step performed sets `k <- k + 1` (R14); the other actions of the sequencer
are events of their own with no token (log 12). -/
def sequenceItem (it : Item) (op : Nibble) (k : Nat) (rest : List Item) (fin : AtCompletion) (s : State) : State :=
  match it with
  | .bus b => { perform b s with seq := .run op (k + 1) rest fin }
  | .retryIfBusy => { retryDelay s with seq := .run op (if s.flag then k + 1 else k) rest fin }
  | .nextIteration =>
    if leavesLoop (decrementCnt s) then { decrementCnt s with seq := .run op k rest fin }
    else { decrementCnt s with seq := .run op k (pollBody s.cfg ++ rest) fin }
  | .loadCnt | .outcome | .setInitialized | .badRow | .illegal => { runItem it s with seq := .run op k rest fin }

/-- One event (R14, R52, R53, R160, R162). The event of a delay step is the Delay Provider's return, and the token is recorded there.
DESIGN CHOICE (log 22): a reset that cuts a delay in progress leaves no token of it in the trace; the spec does not say
whether the delay that was begun stands there. -/
def tick (s : State) : Host.Outcome State Fault Refusal :=
  if s.cfg.wf then
    if s.rst then .next (applyReset s)
    else
      match s.seq with
      | .idle =>
        match s.requests with
        | [] => .next s
        | w :: ws => .next (accept (ruleOf (decode w) s) { s with requests := ws })
      | .run _ _ [] fin => .next (complete fin s)
      | .run op k (it :: rest) fin => .next (sequenceItem it op k rest fin s)
  else .refused .configurationOutsideParameterSpace

/-- `n` events, stopping at the first refusal. -/
def ticks : Nat → State → Host.Outcome State Fault Refusal
  | 0, s => .next s
  | n + 1, s => andThen (tick s) (ticks n)

/-- The environment raises `rst` (R160). -/
def State.raiseReset (s : State) : State := { s with rst := true }

/-- The host presents further requests, each to be taken after the completion of the one before (R52, R60). -/
def State.present (ws : List Request) (s : State) : State := { s with requests := s.requests ++ ws }

/-- The environment changes the foreign bits now (R24). -/
def State.changeForeignBits (w : Nat) (s : State) : State := { s with portOut := mergeForeign s.cfg s.portOut w }

end Sys2Proof.Machine
end

