-- ==== Sys2Proof/Machine/Ports.lean ====
section
/-! DEFINITION. The output ports of the CORE (rule R50) as functions of the state. `rsp_valid` is an event, not a level (R53,
R142): it is the growth of `responses`. -/

namespace Sys2Proof.Machine

/-- `req_ready`: 1 exactly when `SEQ = Idle`. -/
def State.reqReady (s : State) : Bool := decide (s.seq = .idle)

/-- `busy`: `not req_ready`. -/
def State.busy (s : State) : Bool := !s.reqReady

/-- The run of the requests presented is over: the completion event of the last one has occurred and `SEQ = Idle` (R181). No
request is left, so the one accepted last is the last one; a reset that abandons it gives no completion event (R161), and
the run is then not over (log 23). -/
def State.runOver (s : State) : Bool := s.reqReady && s.requests.isEmpty && s.answered

/-- `rsp_status`: `STATUS`. -/
def State.rspStatus (s : State) : BitVec 3 := s.status

/-- `data_dir`: 1 = the four data lines are push-pull outputs (R23). -/
def State.dataDir (s : State) : Bool := decide (s.dir = .output)

/-- What the CORE drives on the four data lines: the data field of PORT_OUT, or nothing while they are inputs (R23, R32,
R73, R74). -/
def State.dataPins (s : State) : Option Nibble :=
  match s.dir with
  | .output => some s.dataOut
  | .input => none

/-- `dly_unit`. -/
inductive DelayUnit where
  | microseconds
  | milliseconds
  deriving DecidableEq, Repr

/-- `dly_req`, `dly_unit` and `dly_count`: the delay step in progress, `none` for `dly_req = 0`. The tick that takes the step is
the Delay Provider's `dly_done` (R77, R78). -/
def State.delayRequest (s : State) : Option (DelayUnit × BitVec 6) :=
  match s.seq with
  | .run _ _ (.bus (.delayUs n) :: _) _ => some (.microseconds, BitVec.ofNat 6 n)
  | .run _ _ (.bus (.delayMs n) :: _) _ => some (.milliseconds, BitVec.ofNat 6 n)
  | .run _ _ (.retryIfBusy :: _) _ => if s.flag then some (.microseconds, BitVec.ofNat 6 s.cfg.tPollRetryUs) else none
  | _ => none

end Sys2Proof.Machine
end

