-- ==== Sys2Proof/Machine/Pseudo.lean ====
section
/-! DEFINITION. The host-side pseudo-operations (45_pseudo_operations.md, rule R60): fixed expansions into operations. None has an
operation code and none adds state. Unused fields are written as zero (R60). -/

namespace Sys2Proof.Machine

/-- The pseudo-operations of R60. -/
inductive Pseudo where
  | clear
  | home
  | displayOn
  | displayOff
  | putchar (c : Byte)
  | printstr (s : List Byte)
  deriving DecidableEq, Repr

/-- The bytes of a string before its first zero byte (R135). -/
def untilZero : List Byte → List Byte
  | [] => []
  | c :: cs => if c = 0#8 then [] else c :: untilZero cs

/-- The expansion (R130 to R135). A string with no zero byte "has no expansion" (R135, U3). -/
def Pseudo.expand (c : Params) : Pseudo → Except Refusal (List Instr)
  | .clear => .ok [.wrcmd c.cmdClear 0]
  | .home => .ok [.wrcmd c.cmdHome 0]
  | .displayOn => .ok [.wrcmd c.cmdDisplayOn 0]
  | .displayOff => .ok [.wrcmd c.cmdDisplayOff 0]
  | .putchar ch => .ok [.wrdata ch 0]
  | .printstr s => if terminated s then .ok ((untilZero s).map (.wrdata · 0)) else .error .unterminatedString

end Sys2Proof.Machine
end

