-- ==== Sys2Proof/Machine/Timing.lean ====
section
/-! DEFINITION. Time (rules R8, R77 to R79): no clock; a trace has legal timings, and only delay steps bound them, from below.
Times are in microseconds. -/

namespace Sys2Proof.Machine

/-- The duration a token asks for, in microseconds (R77, R78). -/
def Token.asksUs : Token → Nat
  | .us n => n
  | .ms n => 1000 * n
  | .rs _ | .rw _ | .e _ | .d _ | .dir _ | .s _ => 0

/-- The sum of the delay steps of a trace (R79, R178). -/
def delayTotal (tokens : List Token) : Nat := (tokens.map Token.asksUs).sum

/-- `t i` may be the time at which the token at position `i` of the trace takes effect (R8, R77 to R79): times do not
decrease, and the step after a delay takes effect no sooner than the asked duration after the step before it. -/
structure LegalTiming (tokens : List Token) (t : Nat → ℚ) : Prop where
  ordered : ∀ i, i + 1 < tokens.length → t i ≤ t (i + 1)
  delayed : ∀ i, (h : i + 2 < tokens.length) → t i + (tokens[i + 1].asksUs : ℚ) ≤ t (i + 2)

end Sys2Proof.Machine
end

