-- ==== Sys2Proof/Safety.lean ====
section
/-! DEFINITION. The terms claims use: the traces and outcomes the rules give, written without the machine's own routines; what a
completed operation leaves alone; the invariant. -/

namespace Sys2Proof.Safety

open Sys2Proof.Machine

/-! ### Traces (R8, R80, R91, R101, R104) -/

/-- The data nibble the `i`-th coming `Sample` reads (R33, R76). -/
def nibbleAt (s : State) (i : Nat) : Nibble := dataField s.cfg (s.answer i)

/-- Whether it reads busy: bit `BF_BIT` of the port word (R76). -/
def busyAt (s : State) (i : Nat) : Bool := (BitVec.ofNat s.cfg.portW (s.answer i)).getLsbD (bfBit s.cfg)

/-- The trace of `Transfer(rs, n)`, `RS=rs RW=0 us(2) D=n E=1 us(1) E=0` (R80). -/
def transferTokens (rs : Bool) (n : Nibble) : List Token :=
  [.rs rs, .rw false, .us 2, .d n, .e true, .us 1, .e false]

/-- One pass of the poll loop that samples the nibble `h` (R91 steps 6a to 6i). -/
def passTokens (c : Params) (h : Nibble) : List Token :=
  [.e true, .us c.tPollSetupUs, .s h, .e false, .us c.tPollGapUs, .e true, .us c.tPollSetupUs, .e false] ++
  (if h.getLsbD 3 then [.us c.tPollRetryUs] else [])

/-- How often the loop body runs, given which samples are busy and the budget: `min(j, POLL_BUDGET)` with `j` the first
ready sample (R94). -/
def passes (busy : Nat → Bool) : Nat → Nat
  | 0 => 0
  | budget + 1 => if busy 0 then passes (fun i => busy (i + 1)) budget + 1 else 1

/-- Passes of a poll whose first sample is the `j`-th coming one. -/
def pollCount (s : State) (j : Nat) : Nat := passes (fun i => busyAt s (j + i)) s.cfg.pollBudget

/-- The poll uses its whole budget and its last sample is busy (R93): every sample the budget allows is busy. -/
def timesOut (s : State) (j : Nat) : Bool := (List.range s.cfg.pollBudget).all fun i => busyAt s (j + i)

/-- The trace of `Poll()` (R91). -/
def pollTokens (s : State) (j : Nat) : List Token :=
  [.d 0, .dir .input, .rs false, .rw true] ++
  (List.range (pollCount s j)).flatMap (fun i => passTokens s.cfg (nibbleAt s (j + i))) ++
  [.rw false, .dir .output]

/-- The trace of `WriteByte(rs, b)` (R101): the poll, the high nibble, the low nibble. -/
def writeTokens (s : State) (j : Nat) (rs : Bool) (b : Byte) : List Token :=
  pollTokens s j ++ transferTokens rs (b.extractLsb' 4 4) ++ transferTokens rs (b.extractLsb' 0 4)

/-- The samples taken by the command writes of `bytes` one after the other. -/
def writesCount (s : State) (j : Nat) : List Byte → Nat
  | [] => 0
  | _ :: bs => pollCount s j + writesCount s (j + pollCount s j) bs

/-- Their trace. -/
def writesTokens (s : State) (j : Nat) : List Byte → List Token
  | [] => []
  | b :: bs => writeTokens s j false b ++ writesTokens s (j + pollCount s j) bs

/-- Whether any of their polls times out: the OR over all of them (R143). -/
def writesTimeOut (s : State) (j : Nat) : List Byte → Bool
  | [] => false
  | _ :: bs => timesOut s j || writesTimeOut s (j + pollCount s j) bs

/-- The coming sample with which the last of their polls begins. -/
def lastPollAt (s : State) (j : Nat) : List Byte → Nat
  | [] => j
  | [_] => j
  | _ :: b :: bs => lastPollAt s (j + pollCount s j) (b :: bs)

/-- Steps 1 to 10 of R104, with the literals R104 gives. -/
def modeSelectTokens (c : Params) : List Token :=
  [.dir .output, .ms 40] ++ transferTokens false c.nib8bit ++ [.ms 5] ++ transferTokens false c.nib8bit ++ [.ms 15] ++
  transferTokens false c.nib8bit ++ [.ms c.tInit3Ms] ++ transferTokens false c.nib4bit ++ [.ms c.tInit4Ms]

/-- The command bytes of R104 steps 11 to 17. -/
def commandBytes (c : Params) : List Byte :=
  [c.cmdEntryInc, c.cmdDisplayCursorOn, c.cmdFunc2Line5x10, c.cmdCursorOff, c.cmdClear, c.cmdDisplayOn, c.cmdHome]

/-- STATUS after an operation whose only possible cause is TIMEOUT (R140). -/
def timeoutStatus (timedOut : Bool) : BitVec 3 := if timedOut then 0b001 else 0b000

/-! ### The port's foreign bits (R24) -/

/-- The foreign bits after the environment's moves, the CORE never changing them (R24, D30). -/
def foreignAfter (c : Params) (bits : Nat) (moves : List (Option Nat)) : Nat :=
  moves.foldl (fun old m => match m with
    | none => old
    | some w => foreignBits c w) bits

/-! ### A completed operation -/

/-- `t` is a state in which an operation accepted in `s` with the fields `op`, `a`, `b` has completed after exactly the bus
steps `tokens`, of which `samples` are samples: acceptance latched the fields (R52), completion gave the response and left
the CORE idle (R53, R181), the trace is the old one and the tokens (R5), the samples took the next answers (R76), the foreign
bits of PORT_OUT are the environment's and the word keeps its width (R24), and the configuration, the reset input and the
host's further requests are as before. How the inputs and the observation are held is the model's (log 2, 3, 4, 16). -/
structure Completed (s t : State) (op : Nibble) (a b : Byte) (tokens : List Token) (samples : Nat) : Prop where
  cfg : t.cfg = s.cfg
  op : t.op = op
  a : t.a = a
  b : t.b = b
  seq : t.seq = .idle
  rst : t.rst = s.rst
  requests : t.requests = s.requests
  trace : t.trace = s.trace ++ tokens
  responses : t.responses = s.responses ++ [t.status]
  answered : t.answered = true
  portIn : t.portIn = s.portIn.drop samples
  draws : t.draws = s.draws + samples
  foreign : t.foreign = s.foreign.drop tokens.length
  foreignBits : foreignBits s.cfg t.portOut = foreignAfter s.cfg (foreignBits s.cfg s.portOut) (s.foreign.take tokens.length)
  port : s.portOut < 2 ^ s.cfg.portW → t.portOut < 2 ^ s.cfg.portW

/-- The pins after a byte write or a poll: `RW = 0`, `E = 0`, `DIR = Output` (R95, R101). -/
structure BusRestored (t : State) (rs : Bool) (data : Nibble) : Prop where
  rs : t.rs = rs
  rw : t.rw = false
  e : t.e = false
  dir : t.dir = .output
  data : t.dataOut = data

/-- `FLAG` and `CNT` after a poll whose first sample was the `j`-th coming one of `s` (R91, R95). -/
structure PollLeft (s t : State) (j : Nat) : Prop where
  flag : t.flag = timesOut s j
  cnt : t.cnt = s.cfg.pollBudget - pollCount s j

/-- The session flags are as before. -/
def SessionKept (s t : State) : Prop := t.initialized = s.initialized ∧ t.enabled = s.enabled

/-! ### The invariant -/

/-- The STATUS values that can occur (R140). -/
def legalStatus (v : BitVec 3) : Bool := v == 0b000 || v == 0b001 || v == 0b010 || v == 0b100

/-- What holds whenever `SEQ = Idle` (R22, R29, R140). -/
structure IdleOk (s : State) : Prop where
  e : s.e = false
  rw : s.rw = false
  status : legalStatus s.status = true

/-- A delay step within the range of its kind: 0 to 10 us (R77), 1 to 40 ms (R78). -/
def delayInRange : Item → Bool
  | .bus (.delayUs n) => decide (n ≤ 10)
  | .bus (.delayMs n) => decide (1 ≤ n) && decide (n ≤ 40)
  | .bus (.setRS _) | .bus (.setRW _) | .bus (.setE _) | .bus (.writeNibble _) | .bus (.setDir _) | .bus .sample => true
  | .loadCnt | .retryIfBusy | .nextIteration | .outcome | .setInitialized | .badRow | .illegal => true

/-- Every delay step still to come in the operation in progress is within its range. -/
def pendingDelaysInRange : Seq → Bool
  | .idle => true
  | .run _ _ rest _ => rest.all delayInRange

/-- The parameter space of R7, the ranges one by one. -/
structure InParameterSpace (c : Params) : Prop where
  portW : 4 ≤ c.portW
  dataShift : c.dataShift ≤ c.portW - 4
  cntW : 1 ≤ c.cntW
  pollBudget : 1 ≤ c.pollBudget ∧ c.pollBudget ≤ 2 ^ c.cntW - 1
  tInit3Ms : 1 ≤ c.tInit3Ms ∧ c.tInit3Ms ≤ 40
  tInit4Ms : 1 ≤ c.tInit4Ms ∧ c.tInit4Ms ≤ 40
  tPollSetupUs : c.tPollSetupUs ≤ 10
  tPollGapUs : c.tPollGapUs ≤ 10
  tPollRetryUs : c.tPollRetryUs ≤ 10

/-- The invariant of the CORE: a configuration of the parameter space, words within their widths (R24, R26), delay steps within
their ranges (R77, R78), no completion event yet of an operation in progress (R53), and the idle invariants (R29) in the state
the operation in progress completes in. -/
structure CoreInv (s : State) : Prop where
  cfg : s.cfg.wf = true
  port : s.portOut < 2 ^ s.cfg.portW
  counter : s.cnt < 2 ^ s.cfg.cntW
  delays : pendingDelaysInRange s.seq = true
  unanswered : s.seq ≠ .idle → s.answered = false
  settled : IdleOk (finish s)

/-- The first `n` coming samples read ready (R178: "every poll ready at its first sample"). -/
def readyAtOnce (s : State) (n : Nat) : Prop := ∀ i, i < n → busyAt s i = false

/-- The timing defaults of R7 for the decided delays. -/
def defaultDelays (c : Params) : Prop :=
  c.tInit3Ms = 1 ∧ c.tInit4Ms = 5 ∧ c.tPollSetupUs = 1 ∧ c.tPollGapUs = 0 ∧ c.tPollRetryUs = 10

/-- The operation polls (R141: "everything that contains a poll"). -/
def polls : Instr → Bool
  | .init _ _ | .start _ _ | .enable _ _ | .wrcmd _ _ | .wrdata _ _ | .poll _ _ => true
  | .setpos row _ => decide (row ≤ 3#8)
  | .nop _ _ | .wrnibc _ _ | .wrnibd _ _ | .reserved7 _ _ | .reservedB _ _ | .reservedC _ _ | .reservedD _ _
  | .reservedE _ _ | .reservedF _ _ => false

/-- The operation is START. -/
def isStart : Instr → Bool
  | .start _ _ => true
  | .nop _ _ | .init _ _ | .enable _ _ | .wrcmd _ _ | .wrdata _ _ | .setpos _ _ | .reserved7 _ _ | .poll _ _
  | .wrnibc _ _ | .wrnibd _ _ | .reservedB _ _ | .reservedC _ _ | .reservedD _ _ | .reservedE _ _
  | .reservedF _ _ => false

/-- The operation sets `INITIALIZED` (R17). -/
def initializes : Instr → Bool
  | .init _ _ | .start _ _ => true
  | .nop _ _ | .enable _ _ | .wrcmd _ _ | .wrdata _ _ | .setpos _ _ | .reserved7 _ _ | .poll _ _
  | .wrnibc _ _ | .wrnibd _ _ | .reservedB _ _ | .reservedC _ _ | .reservedD _ _ | .reservedE _ _
  | .reservedF _ _ => false

/-- The operation sets `ENABLED` (R18). -/
def enables : Instr → Bool
  | .start _ _ | .enable _ _ => true
  | .nop _ _ | .init _ _ | .wrcmd _ _ | .wrdata _ _ | .setpos _ _ | .reserved7 _ _ | .poll _ _
  | .wrnibc _ _ | .wrnibd _ _ | .reservedB _ _ | .reservedC _ _ | .reservedD _ _ | .reservedE _ _
  | .reservedF _ _ => false

/-- The greatest number of bus steps of an operation (R180): `P` is the budget. -/
def mostBusSteps (c : Params) (initialized : Bool) : Instr → Nat
  | .nop _ _ | .reserved7 _ _ | .reservedB _ _ | .reservedC _ _ | .reservedD _ _ | .reservedE _ _ | .reservedF _ _ => 0
  | .wrnibc _ _ | .wrnibd _ _ => 7
  | .poll _ _ => 9 * c.pollBudget + 6
  | .enable _ _ | .wrcmd _ _ | .wrdata _ _ => 9 * c.pollBudget + 20
  | .setpos row _ => if row ≤ 3#8 then 9 * c.pollBudget + 20 else 0
  | .init _ _ => 63 * c.pollBudget + 174
  | .start _ _ => if initialized then 9 * c.pollBudget + 20 else 72 * c.pollBudget + 194

/-- The table of R178: bus steps and delay total in microseconds. -/
def leastSteps (initialized : Bool) : Instr → Nat × Nat
  | .nop _ _ | .reserved7 _ _ | .reservedB _ _ | .reservedC _ _ | .reservedD _ _ | .reservedE _ _ | .reservedF _ _ => (0, 0)
  | .wrnibc _ _ | .wrnibd _ _ => (7, 3)
  | .poll _ _ => (14, 2)
  | .enable _ _ | .wrcmd _ _ | .wrdata _ _ => (28, 8)
  | .setpos row _ => if row ≤ 3#8 then (28, 8) else (0, 0)
  | .init _ _ => (230, 66068)
  | .start _ _ => if initialized then (28, 8) else (258, 66076)

/-- A sample token (R8). -/
def isSample : Token → Bool
  | .s _ => true
  | .rs _ | .rw _ | .e _ | .d _ | .dir _ | .us _ | .ms _ => false

/-- A sample token that reads busy (R76). -/
def isBusySample : Token → Bool
  | .s h => h.getLsbD 3
  | .rs _ | .rw _ | .e _ | .d _ | .dir _ | .us _ | .ms _ => false

/-- A token without the bits of a sample other than the busy flag (R76). -/
def onlyFlag : Token → Token
  | .s h => .s (if h.getLsbD 3 then 0x8 else 0x0)
  | .rs v => .rs v
  | .rw v => .rw v
  | .e v => .e v
  | .d h => .d h
  | .dir d => .dir d
  | .us n => .us n
  | .ms n => .ms n

/-- `n` requests START one after the other. -/
def starts : Nat → State → Host.Outcome State Fault Refusal
  | 0, s => .next s
  | n + 1, s => andThen (exec (.start 0 0) s) (starts n)

end Sys2Proof.Safety
end

