-- ==== Sys2Proof/Certificates/Slice0/Obligations.lean ====
section
/-! DEFINITION. The statements for the provers. Rule numbers R<n> are those of spec/. A statement about the completion of an
operation has the acceptance condition as hypotheses: a configuration of the parameter space (R37, R90) and `SEQ = Idle`
(R52). `Completed`, `BusRestored`, `PollLeft`, `SessionKept` (Safety.lean) together name every field of the state. -/

open Sys2Proof Sys2Proof.Machine Sys2Proof.Safety

/-! ### Encoding -/

/-- Words written out from R51, R54 and the examples of the spec decode to the operations they stand for. -/
def Obligations.RequestWordsDecodeAsWritten : Prop :=
  decode 0x00000#20 = .nop 0 0 ∧ decode 0x10000#20 = .init 0 0 ∧ decode 0x20000#20 = .start 0 0 ∧
  decode 0x30000#20 = .enable 0 0 ∧ decode 0x40100#20 = .wrcmd 0x01 0 ∧ decode 0x54100#20 = .wrdata 0x41 0 ∧
  decode 0x60105#20 = .setpos 1 5 ∧ decode 0x70000#20 = .reserved7 0 0 ∧ decode 0x80000#20 = .poll 0 0 ∧
  decode 0x90300#20 = .wrnibc 0x03 0 ∧ decode 0xA0F00#20 = .wrnibd 0x0F 0 ∧ decode 0xF1234#20 = .reservedF 0x12 0x34

/-- Decode and encode agree in both directions: every instruction, every operand; every request word (R51, R54, R56). -/
def Obligations.DecodeAndEncodeAgree : Prop :=
  (∀ i : Instr, decode (encode i) = i) ∧ ∀ w : Request, encode (decode w) = w

/-- R51: the fields are bits 19:16, 15:8 and 7:0. -/
def Obligations.DecodeReadsTheRequestFields : Prop :=
  ∀ w : Request, (decode w).opcode = w.extractLsb' 16 4 ∧ (decode w).fieldA = w.extractLsb' 8 8 ∧
    (decode w).fieldB = w.extractLsb' 0 8

/-- R56: the reserved codes are 0x7 and 0xB to 0xF. -/
def Obligations.ReservedCodesAreSevenAndElevenUp : Prop :=
  ∀ w : Request, (decode w).isReserved = true ↔ w.extractLsb' 16 4 = 0x7 ∨ 0xB ≤ w.extractLsb' 16 4

/-! ### Bus steps and the port -/

/-- R70, R71, R72: `SetRS`, `SetRW`, `SetE` set their line to `v`, appear in the trace and write nothing else; the environment's
move on the foreign bits stands before the step. -/
def Obligations.ControlLineStepsSetOneLine : Prop :=
  ∀ (v : Bool) (s : State),
    perform (.setRS v) s = { envMove s with rs := v, trace := s.trace ++ [.rs v] } ∧
    perform (.setRW v) s = { envMove s with rw := v, trace := s.trace ++ [.rw v] } ∧
    perform (.setE v) s = { envMove s with e := v, trace := s.trace ++ [.e v] }

/-- R73, R32: `WriteNibble(v)` writes `v` into the data field, leaves every other bit of PORT_OUT as it finds it, writes nothing
else; the pins take the levels only if `DIR = Output`. -/
def Obligations.WriteNibbleWritesOnlyTheDataField : Prop :=
  ∀ (v : Nibble) (s : State), s.cfg.wf = true →
    let t := perform (.writeNibble v) s
    t = { envMove s with portOut := t.portOut, trace := s.trace ++ [.d v] } ∧
    t.portOut < 2 ^ s.cfg.portW ∧
    (∀ i, i < s.cfg.portW → t.portOut.testBit i =
      if s.cfg.dataShift ≤ i ∧ i < s.cfg.dataShift + 4 then v.getLsbD (i - s.cfg.dataShift)
      else (envMove s).portOut.testBit i) ∧
    t.dataOut = v ∧
    t.dataPins = (if s.dir = .output then some v else none)

/-- R76: `Sample` sets `FLAG` to bit `BF_BIT` of the port word the environment answers with, whatever that word is, and writes
nothing else of the CORE's state. -/
def Obligations.SampleSetsFlagToTheBusyBit : Prop :=
  ∀ s : State, perform .sample s =
    { envMove s with
      flag := (BitVec.ofNat s.cfg.portW (s.answer 0)).getLsbD (s.cfg.dataShift + 3)
      portIn := s.portIn.tail, draws := s.draws + 1, trace := s.trace ++ [.s (nibbleAt s 0)] }

/-- R74, R77, R78: `SetDir(d)` writes `DIR` only, and on `Output` the pins take the latched levels at once; a delay step changes
no state of the CORE. -/
def Obligations.DirectionAndDelaySteps : Prop :=
  ∀ s : State,
    (∀ d, perform (.setDir d) s = { envMove s with dir := d, trace := s.trace ++ [.dir d] }) ∧
    (perform (.setDir .output) s).dataPins = some s.dataOut ∧ (perform (.setDir .input) s).dataPins = none ∧
    (∀ n, perform (.delayUs n) s = { envMove s with trace := s.trace ++ [.us n] }) ∧
    (∀ n, perform (.delayMs n) s = { envMove s with trace := s.trace ++ [.ms n] })

/-- R24, D30: the environment's move changes at most the foreign bits of PORT_OUT, to what it says, and never the data field; no
bus step changes a foreign bit. -/
def Obligations.ForeignBitsAreTheEnvironments : Prop :=
  ∀ (x : BusStep) (s : State),
    envMove s = { s with foreign := s.foreign.tail, portOut := (envMove s).portOut } ∧
    (envMove s).dataOut = s.dataOut ∧
    foreignBits s.cfg (envMove s).portOut = foreignAfter s.cfg (foreignBits s.cfg s.portOut) (s.foreign.take 1) ∧
    foreignBits s.cfg (perform x s).portOut = foreignBits s.cfg (envMove s).portOut

/-- R36: splitting a byte into `b[7:4]` and `b[3:0]` and rejoining gives the byte. -/
def Obligations.NibbleSplitRejoins : Prop :=
  ∀ b : Byte, highNibble b = b.extractLsb' 4 4 ∧ lowNibble b = b.extractLsb' 0 4 ∧ rejoin (highNibble b) (lowNibble b) = b

/-! ### What each operation does -/

/-- R81, R80: WRNIBC is the seven steps of `Transfer(0, A[3:0])`, with no poll before them; with `DIR = Input` nothing is driven. -/
def Obligations.WrnibcIsOneControlTransfer : Prop :=
  ∀ (a b : Byte) (s : State), s.cfg.wf = true → s.seq = .idle →
    ∃ t, exec (.wrnibc a b) s = .next t ∧ Completed s t 0x9 a b (transferTokens false (a.extractLsb' 0 4)) 0 ∧
      t.rs = false ∧ t.rw = false ∧ t.e = false ∧ t.dir = s.dir ∧ t.dataOut = a.extractLsb' 0 4 ∧
      t.dataPins = (if s.dir = .output then some (a.extractLsb' 0 4) else none) ∧
      t.flag = s.flag ∧ t.cnt = s.cnt ∧ t.status = 0 ∧ SessionKept s t

/-- R82, R80: WRNIBD is the seven steps of `Transfer(1, A[3:0])`. -/
def Obligations.WrnibdIsOneDataTransfer : Prop :=
  ∀ (a b : Byte) (s : State), s.cfg.wf = true → s.seq = .idle →
    ∃ t, exec (.wrnibd a b) s = .next t ∧ Completed s t 0xA a b (transferTokens true (a.extractLsb' 0 4)) 0 ∧
      t.rs = true ∧ t.rw = false ∧ t.e = false ∧ t.dir = s.dir ∧ t.dataOut = a.extractLsb' 0 4 ∧
      t.dataPins = (if s.dir = .output then some (a.extractLsb' 0 4) else none) ∧
      t.flag = s.flag ∧ t.cnt = s.cnt ∧ t.status = 0 ∧ SessionKept s t

/-- R83: the traces of WRNIBC and WRNIBD are equal token for token except the first. -/
def Obligations.NibbleWritesDifferInTheFirstTokenOnly : Prop :=
  ∀ (a b : Byte) (s : State), s.cfg.wf = true → s.seq = .idle →
    ∃ c d rest, exec (.wrnibc a b) s = .next c ∧ exec (.wrnibd a b) s = .next d ∧
      c.trace = s.trace ++ .rs false :: rest ∧ d.trace = s.trace ++ .rs true :: rest

/-- R91, R92, R93, R95: POLL reads until ready or until the budget is used up, restores the bus on both exits and records a
timeout in `STATUS[0]`. -/
def Obligations.PollReadsUntilReadyOrBudget : Prop :=
  ∀ (a b : Byte) (s : State), s.cfg.wf = true → s.seq = .idle →
    ∃ t, exec (.poll a b) s = .next t ∧ Completed s t 0x8 a b (pollTokens s 0) (pollCount s 0) ∧
      BusRestored t false 0 ∧ PollLeft s t 0 ∧ t.status = timeoutStatus (timesOut s 0) ∧ SessionKept s t

/-- R94, R98: with `k` passes of which `m` sampled busy the poll has `4 + 8k + m + 2` bus steps; `m = k - 1` on Ready, `m = k` on
TimedOut, which takes the whole budget; ready at the first sample gives 14. -/
def Obligations.PollTraceLength : Prop :=
  ∀ (a b : Byte) (s : State), s.cfg.wf = true → s.seq = .idle →
    ∃ t tokens k m, exec (.poll a b) s = .next t ∧ t.trace = s.trace ++ tokens ∧
      tokens.length = 4 + 8 * k + m + 2 ∧ tokens.countP isSample = k ∧ tokens.countP isBusySample = m ∧
      1 ≤ k ∧ k ≤ s.cfg.pollBudget ∧
      (t.timeout = false → m + 1 = k ∧ t.flag = false) ∧
      (t.timeout = true → m = k ∧ k = s.cfg.pollBudget ∧ t.flag = true) ∧
      (busyAt s 0 = false → tokens.length = 14)

/-- R102, R101: WRCMD polls, then sends the high and the low nibble of `A` with `RS = 0`, whatever the poll's outcome. -/
def Obligations.WrcmdPollsThenSendsTheCommand : Prop :=
  ∀ (a b : Byte) (s : State), s.cfg.wf = true → s.seq = .idle →
    ∃ t, exec (.wrcmd a b) s = .next t ∧ Completed s t 0x4 a b (writeTokens s 0 false a) (pollCount s 0) ∧
      BusRestored t false (a.extractLsb' 0 4) ∧ PollLeft s t 0 ∧ t.status = timeoutStatus (timesOut s 0) ∧ SessionKept s t

/-- R103, R101: WRDATA polls, then sends the high and the low nibble of `A` with `RS = 1`. -/
def Obligations.WrdataPollsThenSendsTheData : Prop :=
  ∀ (a b : Byte) (s : State), s.cfg.wf = true → s.seq = .idle →
    ∃ t, exec (.wrdata a b) s = .next t ∧ Completed s t 0x5 a b (writeTokens s 0 true a) (pollCount s 0) ∧
      BusRestored t true (a.extractLsb' 0 4) ∧ PollLeft s t 0 ∧ t.status = timeoutStatus (timesOut s 0) ∧ SessionKept s t

/-- R104, R105: INIT sends the four mode-select nibbles with their delays and the seven command bytes, whatever the polls
return and whatever `INITIALIZED` is, and sets `INITIALIZED`; 230 bus steps and 66 ms + 68 us with the default delays and
every poll ready at once. -/
def Obligations.InitSendsTheWholeSequence : Prop :=
  ∀ (a b : Byte) (s : State), s.cfg.wf = true → s.seq = .idle →
    let tokens := modeSelectTokens s.cfg ++ writesTokens s 0 (commandBytes s.cfg)
    ∃ t, exec (.init a b) s = .next t ∧
      Completed s t 0x1 a b tokens (writesCount s 0 (commandBytes s.cfg)) ∧
      (defaultDelays s.cfg → readyAtOnce s 7 → (tokens.length, delayTotal tokens) = (230, 66068)) ∧
      BusRestored t false (s.cfg.cmdHome.extractLsb' 0 4) ∧ PollLeft s t (lastPollAt s 0 (commandBytes s.cfg)) ∧
      t.status = timeoutStatus (writesTimeOut s 0 (commandBytes s.cfg)) ∧ t.initialized = true ∧ t.enabled = s.enabled

/-- R106: START runs the sequence of INIT only with `INITIALIZED = 0`, then turns the display on, and sets both flags. -/
def Obligations.StartInitializesOnceThenTurnsOn : Prop :=
  ∀ (a b : Byte) (s : State), s.cfg.wf = true → s.seq = .idle →
    let bytes := if s.initialized then [s.cfg.cmdDisplayOn] else commandBytes s.cfg ++ [s.cfg.cmdDisplayOn]
    let tokens := (if s.initialized then [] else modeSelectTokens s.cfg) ++ writesTokens s 0 bytes
    ∃ t, exec (.start a b) s = .next t ∧ Completed s t 0x2 a b tokens (writesCount s 0 bytes) ∧
      (defaultDelays s.cfg → readyAtOnce s 8 → tokens.length = if s.initialized then 28 else 258) ∧
      BusRestored t false (s.cfg.cmdDisplayOn.extractLsb' 0 4) ∧ PollLeft s t (lastPollAt s 0 bytes) ∧
      t.status = timeoutStatus (writesTimeOut s 0 bytes) ∧ t.initialized = true ∧ t.enabled = true

/-- R107: ENABLE sends the display-on command and sets `ENABLED`; it leaves `INITIALIZED` alone. -/
def Obligations.EnableTurnsOnTheDisplay : Prop :=
  ∀ (a b : Byte) (s : State), s.cfg.wf = true → s.seq = .idle →
    ∃ t, exec (.enable a b) s = .next t ∧
      Completed s t 0x3 a b (writeTokens s 0 false s.cfg.cmdDisplayOn) (pollCount s 0) ∧
      BusRestored t false (s.cfg.cmdDisplayOn.extractLsb' 0 4) ∧ PollLeft s t 0 ∧
      t.status = timeoutStatus (timesOut s 0) ∧ t.initialized = s.initialized ∧ t.enabled = true

/-- R100: NOP writes no state except what acceptance and completion write. -/
def Obligations.NopOnlyAcceptsAndCompletes : Prop :=
  ∀ (a b : Byte) (s : State), s.cfg.wf = true → s.seq = .idle →
    exec (.nop a b) s = .next { s with
      op := 0x0, a := a, b := b, status := 0, responses := s.responses ++ [0], answered := true }

/-- R120, R122: SETPOS with a row 0 to 3 sends `(ROW_BASE[A] + B) mod 256` as a command, for every column. -/
def Obligations.SetposSendsTheCursorCommand : Prop :=
  ∀ (a b : Byte) (s : State), s.cfg.wf = true → s.seq = .idle → a ≤ 3#8 →
    let base : Byte := if a = 0 then 0x80 else if a = 1 then 0xC0 else if a = 2 then 0x94 else 0xD4
    let cmd : Byte := BitVec.ofNat 8 ((base.toNat + b.toNat) % 256)
    ∃ t, exec (.setpos a b) s = .next t ∧ Completed s t 0x6 a b (writeTokens s 0 false cmd) (pollCount s 0) ∧
      BusRestored t false (cmd.extractLsb' 0 4) ∧ PollLeft s t 0 ∧ t.status = timeoutStatus (timesOut s 0) ∧ SessionKept s t

/-- R121: SETPOS with a row 4 to 255 performs no bus step and sets `STATUS[1]`. -/
def Obligations.SetposIgnoresAnInvalidRow : Prop :=
  ∀ (a b : Byte) (s : State), s.cfg.wf = true → s.seq = .idle → 3#8 < a →
    exec (.setpos a b) s = .next { s with
      op := 0x6, a := a, b := b, status := 0b010, responses := s.responses ++ [0b010], answered := true }

/-- R56: a reserved code is accepted, performs no bus step, changes no session flag, sets
`STATUS[2]` and completes: the constructors reserved7, reservedB, reservedC, reservedD, reservedE and reservedF. -/
def Obligations.ReservedCodesCompleteAsIllegal : Prop :=
  ∀ (i : Instr) (s : State), s.cfg.wf = true → s.seq = .idle → i.isReserved = true →
    exec i s = .next { s with
      op := i.opcode, a := i.fieldA, b := i.fieldB, status := 0b100, responses := s.responses ++ [0b100],
      answered := true }

/-- R108: the sequence is sent once: after an INIT no START repeats it, without one the first START runs it and no later one
does; two INITs send it twice. The count is of `ms(40)` tokens, so the two decided delays must not be 40 themselves. -/
def Obligations.PowerOnSequenceIsSentOnce : Prop :=
  ∀ s : State, s.cfg.wf = true → s.seq = .idle → s.cfg.tInit3Ms ≠ 40 → s.cfg.tInit4Ms ≠ 40 →
    (∃ s1, exec (.init 0 0) s = .next s1 ∧
      (∀ n, ∃ t tokens, starts n s1 = .next t ∧ t.trace = s.trace ++ tokens ∧ tokens.count (.ms 40) = 1) ∧
      (∃ t tokens, exec (.init 0 0) s1 = .next t ∧ t.trace = s.trace ++ tokens ∧ tokens.count (.ms 40) = 2)) ∧
    (s.initialized = false →
      ∀ n, ∃ t tokens, starts (n + 1) s = .next t ∧ t.trace = s.trace ++ tokens ∧ tokens.count (.ms 40) = 1)

/-! ### Outcomes, session flags, direction -/

/-- R140, R141, R143: one operation reports at most one cause. ILLEGAL is a reserved code, BADROW a SETPOS with a row above 3,
TIMEOUT only an operation that polls; the response is the STATUS. -/
def Obligations.StatusReportsAtMostOneCause : Prop :=
  ∀ (i : Instr) (s : State), s.cfg.wf = true → s.seq = .idle →
    ∃ t, exec i s = .next t ∧ legalStatus t.status = true ∧ t.responses = s.responses ++ [t.status] ∧
      t.illegal = i.isReserved ∧
      (t.badRow = true ↔ ∃ a b, i = .setpos a b ∧ 3#8 < a) ∧
      (t.timeout = true → polls i = true)

/-- R17, R18: `INITIALIZED` is set by INIT and START, `ENABLED` by START and ENABLE, and no operation clears either. -/
def Obligations.SessionFlagsAreOnlyEverSet : Prop :=
  ∀ (i : Instr) (s : State), s.cfg.wf = true → s.seq = .idle →
    ∃ t, exec i s = .next t ∧ t.initialized = (s.initialized || initializes i) ∧ t.enabled = (s.enabled || enables i)

/-- R29: an operation that polls leaves `DIR = Output`, every other leaves `DIR` alone; with `E = 0` and `RW = 0` before, an
operation leaves `E = 0` and `RW = 0`. -/
def Obligations.OperationsLeaveTheBusIdle : Prop :=
  ∀ (i : Instr) (s : State), s.cfg.wf = true → s.seq = .idle →
    ∃ t, exec i s = .next t ∧ t.dir = (if polls i then .output else s.dir) ∧
      (s.e = false → t.e = false) ∧ (s.rw = false → t.rw = false)

/-! ### Reset and the invariant -/

/-- The reset values of 10_state.md section 1 in `State.reset`. -/
def Obligations.ResetStateHoldsTheTable : Prop :=
  State.reset.op = 0 ∧ State.reset.a = 0 ∧ State.reset.b = 0 ∧ State.reset.seq = .idle ∧ State.reset.flag = false ∧
  State.reset.status = 0 ∧ State.reset.initialized = false ∧ State.reset.enabled = false ∧ State.reset.rs = false ∧
  State.reset.rw = false ∧ State.reset.e = false ∧ State.reset.dir = .input ∧ State.reset.dataOut = 0 ∧ State.reset.cnt = 0

/-- R160, R161: reset, in any state, sets every state element at once and leaves the foreign bits alone; an operation in progress is
abandoned with no further bus step (the trace is as before), no completion and no response. -/
def Obligations.ResetAbandonsAndClears : Prop :=
  ∀ s : State, s.cfg.wf = true → s.rst = true →
    ∃ t, step s = .next t ∧ tick s = .next t ∧
      t.op = 0 ∧ t.a = 0 ∧ t.b = 0 ∧ t.seq = .idle ∧ t.flag = false ∧ t.status = 0 ∧ t.initialized = false ∧
      t.enabled = false ∧ t.rs = false ∧ t.rw = false ∧ t.e = false ∧ t.dir = .input ∧ t.dataOut = 0 ∧ t.cnt = 0 ∧
      foreignBits s.cfg t.portOut = foreignBits s.cfg s.portOut ∧ t.trace = s.trace ∧ t.responses = s.responses ∧
      t.answered = s.answered

/-- The model's choice (log 15): reset takes the reset input and leaves the configuration, the host's requests and what the
environment holds as they are. -/
def Obligations.ResetLeavesTheEnvironmentAlone : Prop :=
  ∀ s : State, s.cfg.wf = true → s.rst = true →
    ∃ t, step s = .next t ∧ t.rst = false ∧ t.cfg = s.cfg ∧ t.requests = s.requests ∧ t.portIn = s.portIn ∧
      t.draws = s.draws ∧ t.foreign = s.foreign

/-- The invariant holds at reset (the configuration and the foreign bits there are the model's choice, log 5, log 6). -/
def Obligations.ResetStateMeetsTheInvariant : Prop := CoreInv State.reset

/-- Every step keeps the invariant: the words stay within their widths, and wherever the CORE is idle `E = 0`, `RW = 0` and STATUS
is one of the four values (R22, R24, R26, R29, R140); the pending delays stay within their ranges (R77, R78) and a running
operation has had no completion event (R53). -/
def Obligations.StepKeepsTheInvariant : Prop :=
  ∀ s t : State, CoreInv s → step s = .next t → CoreInv t

/-- So does every single event. -/
def Obligations.TickKeepsTheInvariant : Prop :=
  ∀ s t : State, CoreInv s → tick s = .next t → CoreInv t

/-! ### The machine -/

/-- A step runs the decoded request: idle, no reset waiting, a request presented: the step takes it off the host's list and is
exec of the instruction it decodes to. -/
def Obligations.StepRunsTheDecodedRequest : Prop :=
  ∀ (s : State) (w : Request) (ws : List Request), s.rst = false → s.seq = .idle → s.requests = w :: ws →
    step s = exec (decode w) { s with requests := ws }

/-- R162: after reset the CORE is idle and has done no bus step; idle with no request and no reset, it waits and does nothing, for
any number of events. -/
def Obligations.IdleCoreWaits : Prop :=
  ∀ s : State, s.cfg.wf = true →
    (s.rst = true → ∃ t, step s = .next t ∧ t.seq = .idle ∧ t.trace = s.trace) ∧
    (s.rst = false → s.seq = .idle → s.requests = [] → step s = .next s ∧ ∀ n, ticks n s = .next s)

/-- R52, R11: acceptance, only when idle and a request is presented, latches the fields, clears STATUS and starts the operation at
step 0; while one runs a presented request is held and the latches keep their value, and the hold ends in an idle CORE with
the request still presented. -/
def Obligations.AcceptanceLatchesAndBusyHolds : Prop :=
  ∀ s : State, s.cfg.wf = true → s.rst = false →
    (∀ w ws, s.seq = .idle → s.requests = w :: ws →
      ∃ rest fin, tick s = .next { s with
        op := w.extractLsb' 16 4, a := w.extractLsb' 8 8, b := w.extractLsb' 0 8, status := 0,
        seq := .run (w.extractLsb' 16 4) 0 rest fin, requests := ws, answered := false }) ∧
    (s.seq ≠ .idle →
      (∃ t, tick s = .next t ∧ t.requests = s.requests ∧ t.op = s.op ∧ t.a = s.a ∧ t.b = s.b) ∧
      ∃ n t, ticks n s = .next t ∧ t.seq = .idle ∧ t.requests = s.requests)

/-- R53: the completion event sets the session flags the rule lists, makes the CORE idle and gives STATUS as the response, and
nothing else; STATUS then keeps its value through every event but a reset until the next acceptance. -/
def Obligations.CompletionEventGivesTheResponse : Prop :=
  ∀ s : State, s.cfg.wf = true → s.rst = false →
    (∀ op k fin, s.seq = .run op k [] fin →
      tick s = .next { s with
        seq := .idle, initialized := s.initialized || fin.setsInitialized, enabled := s.enabled || fin.setsEnabled,
        responses := s.responses ++ [s.status], answered := true }) ∧
    (s.seq = .idle → ∃ t, tick s = .next t ∧ (t.seq = .idle → t.status = s.status))

/-- R14: `k` counts the bus steps performed: an event of a running operation either performs one bus step and adds one to `k`, or
performs none and leaves `k`, or is the completion. -/
def Obligations.SequencerCountsBusSteps : Prop :=
  ∀ (s t : State) (op : Nibble) (k : Nat) (rest : List Item) (fin : AtCompletion),
    s.rst = false → s.seq = .run op k rest fin → tick s = .next t →
    (∃ tok rest', t.trace = s.trace ++ [tok] ∧ t.seq = .run op (k + 1) rest' fin) ∨
    (t.trace = s.trace ∧ ((∃ rest', t.seq = .run op k rest' fin) ∨ (t.seq = .idle ∧ rest = [])))

/-- R14, R41, R180: a step that runs a request is the bus-step machine run from the acceptance to the first completion: it is
busy at every event between, and then in exactly the state exec gives. That one step is a whole operation is the model's
choice (log 1). -/
def Obligations.StepIsTheEventsUpToCompletion : Prop :=
  ∀ s t : State, s.rst = false → (s.seq ≠ .idle ∨ s.requests ≠ []) → step s = .next t →
    ∃ n, 0 < n ∧ ticks n s = .next t ∧ t.seq = .idle ∧
      ∀ m u, 0 < m → m < n → ticks m s = .next u → u.seq ≠ .idle

/-- exec of a request while an operation runs holds the request until that one completes (R52; the form is the model's choice, log 14). -/
def Obligations.BusyRequestWaitsForCompletion : Prop :=
  ∀ (i : Instr) (s : State), exec i s = exec i (finish s) ∧ (finish s).seq = .idle

/-- R7, R37, R90, D34: the configurations of the parameter space, range by range, and no others are accepted: outside it every
instruction, the step and every event refuse, inside it every one answers a next state. -/
def Obligations.ConfigurationOutsideTheSpaceIsRefused : Prop :=
  (∀ c : Params, c.wf = true ↔ InParameterSpace c) ∧
  (∀ (i : Instr) (s : State), ¬ InParameterSpace s.cfg →
    exec i s = .refused .configurationOutsideParameterSpace ∧ step s = .refused .configurationOutsideParameterSpace ∧
    tick s = .refused .configurationOutsideParameterSpace) ∧
  ∀ (i : Instr) (s : State), InParameterSpace s.cfg →
    (∃ t, exec i s = .next t) ∧ (∃ t, step s = .next t) ∧ ∃ t, tick s = .next t

/-- R50, R77, R78: while a delay is asked for at the delay port, the next event performs that delay step with the count shown. The
invariant is what keeps every pending count within the six bits of the port; that the token is recorded at this event, the
Delay Provider's return, is the model's choice (log 22). -/
def Obligations.DelayPortShowsTheDelayStep : Prop :=
  ∀ (s : State) (unit : DelayUnit) (count : BitVec 6), CoreInv s → s.rst = false → s.delayRequest = some (unit, count) →
    ∃ t, tick s = .next t ∧
      t.trace = s.trace ++ [match unit with | .microseconds => .us count.toNat | .milliseconds => .ms count.toNat] ∧
      t = { envMove s with trace := t.trace, seq := t.seq } ∧ t.seq ≠ .idle ∧
      match unit with | .microseconds => count ≤ 10#6 | .milliseconds => 1#6 ≤ count ∧ count ≤ 40#6

/-! ### What cannot matter -/

/-- R24, U12: the foreign bits of the port are never read: changing them before an operation changes nothing but themselves. -/
def Obligations.ForeignBitsNeverMatter : Prop :=
  ∀ (i : Instr) (s : State) (w : Nat), s.cfg.wf = true → s.seq = .idle →
    ∃ t u, exec i s = .next t ∧ exec i (s.changeForeignBits w) = .next u ∧
      u = { t with portOut := u.portOut } ∧ u.dataOut = t.dataOut

/-- R15, R18, R26: no operation reads `ENABLED`, nor a `FLAG` or `CNT` left by an earlier poll. -/
def Obligations.LeftoverFlagCounterAndEnabledNeverMatter : Prop :=
  ∀ (i : Instr) (s : State) (enabled flag : Bool) (cnt : Nat), s.cfg.wf = true → s.seq = .idle →
    ∃ t u, exec i s = .next t ∧ exec i { s with enabled := enabled, flag := flag, cnt := cnt } = .next u ∧
      u = { t with enabled := u.enabled, flag := u.flag, cnt := u.cnt } ∧
      (polls i = true → u.flag = t.flag ∧ u.cnt = t.cnt)

/-- R17, R170: no operation but START reads `INITIALIZED`. -/
def Obligations.OnlyStartReadsInitialized : Prop :=
  ∀ (i : Instr) (s : State) (v : Bool), s.cfg.wf = true → s.seq = .idle → isStart i = false →
    ∃ t u, exec i s = .next t ∧ exec i { s with initialized := v } = .next u ∧ u = { t with initialized := u.initialized }

/-- R25, R76: of the port words sampled only bit `BF_BIT` has an effect. -/
def Obligations.OnlyTheBusyBitOfSamplesMatters : Prop :=
  ∀ (i : Instr) (s : State) (other : List Nat), s.cfg.wf = true → s.seq = .idle → other.length = s.portIn.length →
    (∀ k, busyAt { s with portIn := other } k = busyAt s k) →
    ∃ t u, exec i s = .next t ∧ exec i { s with portIn := other } = .next u ∧
      u = { t with trace := u.trace, portIn := u.portIn } ∧ u.trace.map onlyFlag = t.trace.map onlyFlag

/-- R12: an operand an operation does not use has no effect but on its latch: all of `a` and `b` for NOP, INIT, START, ENABLE, POLL
and the reserved codes, `b` for WRCMD and WRDATA, `A[7:4]` and `b` for WRNIBC and WRNIBD. -/
def Obligations.UnusedOperandBitsHaveNoEffect : Prop :=
  ∀ (s : State) (a b a' b' : Byte), s.cfg.wf = true → s.seq = .idle →
    let same (i j : Instr) := ∃ t u, exec i s = .next t ∧ exec j s = .next u ∧ u = { t with a := u.a, b := u.b }
    same (.nop a b) (.nop a' b') ∧ same (.init a b) (.init a' b') ∧ same (.start a b) (.start a' b') ∧
    same (.enable a b) (.enable a' b') ∧ same (.poll a b) (.poll a' b') ∧ same (.wrcmd a b) (.wrcmd a b') ∧
    same (.wrdata a b) (.wrdata a b') ∧ same (.reserved7 a b) (.reserved7 a' b') ∧
    same (.reservedB a b) (.reservedB a' b') ∧ same (.reservedC a b) (.reservedC a' b') ∧
    same (.reservedD a b) (.reservedD a' b') ∧ same (.reservedE a b) (.reservedE a' b') ∧
    same (.reservedF a b) (.reservedF a' b') ∧
    (a.extractLsb' 0 4 = a'.extractLsb' 0 4 →
      same (.wrnibc a b) (.wrnibc a' b') ∧ same (.wrnibd a b) (.wrnibd a' b'))

/-- R43: a change of the host's request lines during an operation is not seen by it. -/
def Obligations.RequestLinesAreNotSeenWhileBusy : Prop :=
  ∀ (s : State) (rs : List Request), s.cfg.wf = true → s.rst = false → s.seq ≠ .idle →
    ∃ t u, tick s = .next t ∧ step s = .next u ∧ tick { s with requests := rs } = .next { t with requests := rs } ∧
      step { s with requests := rs } = .next { u with requests := rs }

/-! ### Liveness and timing -/

/-- R180: every operation completes, within the greatest number of bus steps, which it takes when every sample of its polls (at most
eight) is busy. R180's premise that every delay returns is built into the model (DEDUCED, log 20): exec takes every delay
step to its end. -/
def Obligations.EveryOperationCompletesWithinItsBound : Prop :=
  ∀ (i : Instr) (s : State), s.cfg.wf = true → s.seq = .idle →
    ∃ t tokens, exec i s = .next t ∧ t.seq = .idle ∧ t.trace = s.trace ++ tokens ∧
      tokens.length ≤ mostBusSteps s.cfg s.initialized i ∧
      ((∀ k, k < 8 * s.cfg.pollBudget → busyAt s k = true) → tokens.length = mostBusSteps s.cfg s.initialized i)

/-- R178: with the default delays and every poll ready at its first sample, the bus steps and the delay total are those of the
table. -/
def Obligations.StepCountsAndDelayTotalsWhenReady : Prop :=
  ∀ (i : Instr) (s : State), s.cfg.wf = true → s.seq = .idle → defaultDelays s.cfg → readyAtOnce s 8 →
    ∃ t tokens, exec i s = .next t ∧ t.trace = s.trace ++ tokens ∧
      (tokens.length, delayTotal tokens) = leastSteps s.initialized i

/-- R175: in every transfer, wherever it stands in a trace and whatever the legal timing: at least 2 us from `SetRW` to
`WriteNibble` and from `SetRS` to `SetE(1)`, at least 1 us of pulse; from `WriteNibble` to `SetE(1)` no time need pass. -/
def Obligations.TransferSetupAndPulseTimes : Prop :=
  (∀ (before after : List Token) (rs : Bool) (n : Nibble) (t : Nat → ℚ),
    LegalTiming (before ++ transferTokens rs n ++ after) t →
    let p := before.length
    t (p + 3) - t (p + 1) ≥ 2 ∧ t (p + 4) - t p ≥ 2 ∧ t (p + 6) - t (p + 4) ≥ 1) ∧
  ∀ rs n, ∃ t, LegalTiming (transferTokens rs n) t ∧ t 4 = t 3

/-- R176: the times of a pass of the poll loop. -/
def Obligations.PollPassTimes : Prop :=
  ∀ (before after : List Token) (c : Params) (h : Nibble) (t : Nat → ℚ),
    LegalTiming (before ++ passTokens c h ++ after) t →
    let p := before.length
    t (p + 2) - t p ≥ c.tPollSetupUs ∧ t (p + 5) - t (p + 3) ≥ c.tPollGapUs ∧ t (p + 7) - t (p + 5) ≥ c.tPollSetupUs ∧
    (h.getLsbD 3 = true → after ≠ [] → t (p + 9) - t (p + 7) ≥ c.tPollRetryUs)

/-- R177: the times of the mode-select part of INIT, in microseconds. -/
def Obligations.InitDelayTimes : Prop :=
  ∀ (before after : List Token) (c : Params) (t : Nat → ℚ), LegalTiming (before ++ modeSelectTokens c ++ after) t →
    let p := before.length
    t (p + 2) - t p ≥ 40000 ∧ t (p + 10) - t (p + 8) ≥ 5000 ∧ t (p + 18) - t (p + 16) ≥ 15000 ∧
    t (p + 26) - t (p + 24) ≥ 1000 * (c.tInit3Ms : ℚ) ∧
    (after ≠ [] → t (p + 34) - t (p + 32) ≥ 1000 * (c.tInit4Ms : ℚ))

/-- R179: a timed-out poll takes at least `POLL_BUDGET x (2 x T_POLL_SETUP_US + T_POLL_GAP_US + T_POLL_RETRY_US)`, in every legal
timing, from its first pulse to its last step. -/
def Obligations.TimedOutPollTakesItsBudget : Prop :=
  ∀ (s : State) (t : Nat → ℚ), s.cfg.wf = true → timesOut s 0 = true → LegalTiming (pollTokens s 0) t →
    t ((pollTokens s 0).length - 1) - t 4 ≥
      (s.cfg.pollBudget : ℚ) * (2 * s.cfg.tPollSetupUs + s.cfg.tPollGapUs + s.cfg.tPollRetryUs)

/-! ### Host-side pseudo-operations -/

/-- R130 to R135: the expansions; PRINTSTR sends the bytes before the first zero byte, and a string with none is refused. -/
def Obligations.PseudoOperationsExpand : Prop :=
  ∀ c : Params,
    Pseudo.clear.expand c = .ok [.wrcmd c.cmdClear 0] ∧ Pseudo.home.expand c = .ok [.wrcmd c.cmdHome 0] ∧
    Pseudo.displayOn.expand c = .ok [.wrcmd c.cmdDisplayOn 0] ∧ Pseudo.displayOff.expand c = .ok [.wrcmd c.cmdDisplayOff 0] ∧
    (∀ ch, (Pseudo.putchar ch).expand c = .ok [.wrdata ch 0]) ∧
    (∀ text rest : List Byte, 0#8 ∉ text →
      (Pseudo.printstr (text ++ 0#8 :: rest)).expand c = .ok (text.map fun ch => .wrdata ch 0)) ∧
    (∀ text : List Byte, 0#8 ∉ text → (Pseudo.printstr text).expand c = .error .unterminatedString)

/-! ### The end of a run -/

/-- R181: the run of a program, a nonempty list of requests presented to an idle CORE, is over at the completion event of its last
request and not before, with the CORE idle; where a reset abandons the last request its completion event never occurs and
the run is never over. How the end is read off the state is the model's choice (log 23). -/
def Obligations.RunIsOverAtTheLastCompletion : Prop :=
  (∀ (s : State) (program : List Request), s.cfg.wf = true → s.rst = false → s.seq = .idle → s.requests = [] →
    program ≠ [] →
    ∃ n t, ticks n (s.present program) = .next t ∧ t.runOver = true ∧ t.seq = .idle ∧
      t.responses.length = s.responses.length + program.length ∧
      ∀ m u, m < n → ticks m (s.present program) = .next u →
        u.runOver = false ∧ u.responses.length < s.responses.length + program.length) ∧
  ∀ s t : State, CoreInv s → s.rst = true → s.seq ≠ .idle → s.requests = [] → tick s = .next t →
    ∀ n u, ticks n t = .next u → u.runOver = false ∧ u.responses = s.responses
end

