-- ==== Sys2Proof/Laws/Port.lean ====
section
/-! SUPPORT. The laws of the port word (R24, R31 to R33): read after write, the other field left alone, the width kept. -/

namespace Sys2Proof.Machine

variable {c : Params}

/-- The part of `Params.wf` the port needs: the data field lies inside the word (R37). -/
theorem Params.wf_shift (h : c.wf = true) : c.dataShift + 4 ≤ c.portW := by
  simp [Params.wf] at h; omega

theorem Params.wf_budget (h : c.wf = true) : 1 ≤ c.pollBudget ∧ c.pollBudget < 2 ^ c.cntW := by
  simp [Params.wf] at h; omega

theorem portWriteNibble_lt (p : Nat) (v : Nibble) : portWriteNibble c p v < 2 ^ c.portW := BitVec.isLt _

theorem mergeForeign_lt (p w : Nat) : mergeForeign c p w < 2 ^ c.portW := BitVec.isLt _

theorem dataMask_getLsbD (i : Nat) :
    (dataMask c).getLsbD i = (decide (i < c.portW) && decide (c.dataShift ≤ i) && decide (i < c.dataShift + 4)) := by
  have h15 : ∀ k, Nat.testBit 15 k = decide (k < 4) := fun k => by
    have := Nat.testBit_two_pow_sub_one 4 k
    simpa using this
  simp only [dataMask, BitVec.getLsbD_shiftLeft, BitVec.getLsbD_ofNat, h15]
  rcases Nat.lt_or_ge i c.dataShift with h | h <;> rcases Nat.lt_or_ge i c.portW with h' | h' <;>
    (simp [h, h', Nat.not_lt.mpr, Nat.not_le.mpr]; try grind)

theorem dataField_getLsbD (w i : Nat) :
    (dataField c w).getLsbD i = (decide (i < 4) && (BitVec.ofNat c.portW w).getLsbD (c.dataShift + i)) := by
  simp [dataField, BitVec.getLsbD_extractLsb']

/-- `FLAG <- n[3]`, which is `PORT_IN[BF_BIT]` (R76). -/
theorem busyOf_portReadNibble (w : Nat) :
    busyOf (portReadNibble c w) = (BitVec.ofNat c.portW w).getLsbD (bfBit c) := by
  rw [busyOf, portReadNibble, dataField_getLsbD]
  simp only [bfBit, show (3 < 4) = True by simp, decide_true, Bool.true_and]

theorem portWriteNibble_getLsbD (p : Nat) (v : Nibble) (i : Nat) :
    (BitVec.ofNat c.portW (portWriteNibble c p v)).getLsbD i =
      if c.dataShift ≤ i ∧ i < c.dataShift + 4 then decide (i < c.portW) && v.getLsbD (i - c.dataShift)
      else (BitVec.ofNat c.portW p).getLsbD i := by
  rw [portWriteNibble, BitVec.ofNat_toNat, BitVec.setWidth_eq]
  simp only [BitVec.getLsbD_or, BitVec.getLsbD_and, BitVec.getLsbD_not, BitVec.getLsbD_shiftLeft,
    BitVec.getLsbD_setWidth, dataMask_getLsbD]
  have hv : ∀ k, 4 ≤ k → v.getLsbD k = false := fun k hk => BitVec.getLsbD_of_ge v k hk
  by_cases h3 : i < c.portW
  · by_cases h1 : c.dataShift ≤ i <;> by_cases h2 : i < c.dataShift + 4
    · simp [h1, h2, h3, Nat.not_lt.mpr h1, show i - c.dataShift < c.portW by omega]
    · simp [h1, h2, h3, hv (i - c.dataShift) (by omega)]
    · simp [h1, h3, Nat.lt_of_not_le h1]
    · exact absurd h2 (by omega)
  · simp [h3, BitVec.getLsbD_of_ge (BitVec.ofNat c.portW p) i (Nat.le_of_not_lt h3)]

theorem mergeForeign_getLsbD (p w i : Nat) :
    (BitVec.ofNat c.portW (mergeForeign c p w)).getLsbD i =
      if c.dataShift ≤ i ∧ i < c.dataShift + 4 then (BitVec.ofNat c.portW p).getLsbD i
      else (BitVec.ofNat c.portW w).getLsbD i := by
  rw [mergeForeign, BitVec.ofNat_toNat, BitVec.setWidth_eq]
  simp only [BitVec.getLsbD_or, BitVec.getLsbD_and, BitVec.getLsbD_not, dataMask_getLsbD]
  by_cases h3 : i < c.portW
  · by_cases h1 : c.dataShift ≤ i <;> by_cases h2 : i < c.dataShift + 4 <;> simp [h1, h2, h3]
  · simp [h3, BitVec.getLsbD_of_ge (BitVec.ofNat c.portW p) i (Nat.le_of_not_lt h3),
      BitVec.getLsbD_of_ge (BitVec.ofNat c.portW w) i (Nat.le_of_not_lt h3)]

/-- What the foreign bits depend on. -/
theorem foreignBits_congr {p q : Nat}
    (h : ∀ i, ¬ (c.dataShift ≤ i ∧ i < c.dataShift + 4) →
      (BitVec.ofNat c.portW p).getLsbD i = (BitVec.ofNat c.portW q).getLsbD i) :
    foreignBits c p = foreignBits c q := by
  unfold foreignBits
  congr 1
  refine BitVec.eq_of_getLsbD_eq fun i hi => ?_
  simp only [BitVec.getLsbD_and, BitVec.getLsbD_not, dataMask_getLsbD, hi, decide_true, Bool.true_and]
  by_cases hd : c.dataShift ≤ i ∧ i < c.dataShift + 4
  · simp [hd.1, hd.2]
  · rw [h i hd]

/-- What the data field depends on. -/
theorem dataField_congr {p q : Nat}
    (h : ∀ i, i < 4 → (BitVec.ofNat c.portW p).getLsbD (c.dataShift + i) = (BitVec.ofNat c.portW q).getLsbD (c.dataShift + i)) :
    dataField c p = dataField c q := by
  refine BitVec.eq_of_getLsbD_eq fun i hi => ?_
  rw [dataField_getLsbD, dataField_getLsbD, h i hi]

/-- The nibble written is the nibble read back (R32). -/
theorem dataField_portWriteNibble (h : c.wf = true) (p : Nat) (v : Nibble) :
    dataField c (portWriteNibble c p v) = v := by
  have hs := Params.wf_shift h
  refine BitVec.eq_of_getLsbD_eq fun i hi => ?_
  rw [dataField_getLsbD, portWriteNibble_getLsbD]
  have h1 : c.dataShift + i < c.portW := by omega
  simp [hi, h1]

/-- `PortWriteNibble` leaves every other bit of the port alone (R32). -/
theorem foreignBits_portWriteNibble (p : Nat) (v : Nibble) :
    foreignBits c (portWriteNibble c p v) = foreignBits c p :=
  foreignBits_congr fun i hi => by rw [portWriteNibble_getLsbD, if_neg hi]

/-- The environment never changes the data field (R24). -/
theorem dataField_mergeForeign (p w : Nat) : dataField c (mergeForeign c p w) = dataField c p :=
  dataField_congr fun i hi => by rw [mergeForeign_getLsbD, if_pos (by omega)]

theorem foreignBits_mergeForeign (p w : Nat) : foreignBits c (mergeForeign c p w) = foreignBits c w :=
  foreignBits_congr fun i hi => by rw [mergeForeign_getLsbD, if_neg hi]

/-- A port word within its width is its data field and its foreign bits. -/
theorem port_ext {p q : Nat} (hp : p < 2 ^ c.portW) (hq : q < 2 ^ c.portW)
    (hd : dataField c p = dataField c q) (hf : foreignBits c p = foreignBits c q) : p = q := by
  have key : BitVec.ofNat c.portW p = BitVec.ofNat c.portW q := by
    refine BitVec.eq_of_getLsbD_eq fun i hi => ?_
    by_cases h : c.dataShift ≤ i ∧ i < c.dataShift + 4
    · have := congrArg (fun n : Nibble => n.getLsbD (i - c.dataShift)) hd
      simp only [dataField_getLsbD] at this
      rw [show c.dataShift + (i - c.dataShift) = i by omega] at this
      simpa [show i - c.dataShift < 4 by omega] using this
    · have := congrArg (fun n : Nat => n.testBit i) hf
      simp only [foreignBits, BitVec.testBit_toNat, BitVec.getLsbD_and, BitVec.getLsbD_not, dataMask_getLsbD] at this
      have hb : (decide (c.dataShift ≤ i) && decide (i < c.dataShift + 4)) = false := by
        simpa using fun a => Nat.le_of_not_lt fun b => h ⟨a, b⟩
      simpa [hi, Bool.and_assoc, hb] using this
  have := congrArg BitVec.toNat key
  simpa [Nat.mod_eq_of_lt hp, Nat.mod_eq_of_lt hq] using this

end Sys2Proof.Machine
end

