-- ==== Sys2Proof/Laws/State.lean ====
section
/-! SUPPORT. One lemma per field per update of the state, so that no later proof unfolds a record update. -/

namespace Sys2Proof.Machine

/-! ### `record`: the trace grows, nothing else changes -/

@[simp] theorem record_cfg (tok : Token) (s : State) : (record tok s).cfg = s.cfg := rfl
@[simp] theorem record_op (tok : Token) (s : State) : (record tok s).op = s.op := rfl
@[simp] theorem record_a (tok : Token) (s : State) : (record tok s).a = s.a := rfl
@[simp] theorem record_b (tok : Token) (s : State) : (record tok s).b = s.b := rfl
@[simp] theorem record_seq (tok : Token) (s : State) : (record tok s).seq = s.seq := rfl
@[simp] theorem record_flag (tok : Token) (s : State) : (record tok s).flag = s.flag := rfl
@[simp] theorem record_status (tok : Token) (s : State) : (record tok s).status = s.status := rfl
@[simp] theorem record_initialized (tok : Token) (s : State) : (record tok s).initialized = s.initialized := rfl
@[simp] theorem record_enabled (tok : Token) (s : State) : (record tok s).enabled = s.enabled := rfl
@[simp] theorem record_rs (tok : Token) (s : State) : (record tok s).rs = s.rs := rfl
@[simp] theorem record_rw (tok : Token) (s : State) : (record tok s).rw = s.rw := rfl
@[simp] theorem record_e (tok : Token) (s : State) : (record tok s).e = s.e := rfl
@[simp] theorem record_dir (tok : Token) (s : State) : (record tok s).dir = s.dir := rfl
@[simp] theorem record_portOut (tok : Token) (s : State) : (record tok s).portOut = s.portOut := rfl
@[simp] theorem record_cnt (tok : Token) (s : State) : (record tok s).cnt = s.cnt := rfl
@[simp] theorem record_rst (tok : Token) (s : State) : (record tok s).rst = s.rst := rfl
@[simp] theorem record_requests (tok : Token) (s : State) : (record tok s).requests = s.requests := rfl
@[simp] theorem record_portIn (tok : Token) (s : State) : (record tok s).portIn = s.portIn := rfl
@[simp] theorem record_draws (tok : Token) (s : State) : (record tok s).draws = s.draws := rfl
@[simp] theorem record_foreign (tok : Token) (s : State) : (record tok s).foreign = s.foreign := rfl
@[simp] theorem record_trace (tok : Token) (s : State) : (record tok s).trace = s.trace ++ [tok] := rfl
@[simp] theorem record_responses (tok : Token) (s : State) : (record tok s).responses = s.responses := rfl
@[simp] theorem record_answered (tok : Token) (s : State) : (record tok s).answered = s.answered := rfl

/-! ### `envMove`: the head of `foreign` is used up and the foreign bits may change -/

@[simp] theorem envMove_cfg (s : State) : (envMove s).cfg = s.cfg := by unfold envMove; split <;> simp [*]
@[simp] theorem envMove_op (s : State) : (envMove s).op = s.op := by unfold envMove; split <;> simp [*]
@[simp] theorem envMove_a (s : State) : (envMove s).a = s.a := by unfold envMove; split <;> simp [*]
@[simp] theorem envMove_b (s : State) : (envMove s).b = s.b := by unfold envMove; split <;> simp [*]
@[simp] theorem envMove_seq (s : State) : (envMove s).seq = s.seq := by unfold envMove; split <;> simp [*]
@[simp] theorem envMove_flag (s : State) : (envMove s).flag = s.flag := by unfold envMove; split <;> simp [*]
@[simp] theorem envMove_status (s : State) : (envMove s).status = s.status := by unfold envMove; split <;> simp [*]
@[simp] theorem envMove_initialized (s : State) : (envMove s).initialized = s.initialized := by unfold envMove; split <;> simp [*]
@[simp] theorem envMove_enabled (s : State) : (envMove s).enabled = s.enabled := by unfold envMove; split <;> simp [*]
@[simp] theorem envMove_rs (s : State) : (envMove s).rs = s.rs := by unfold envMove; split <;> simp [*]
@[simp] theorem envMove_rw (s : State) : (envMove s).rw = s.rw := by unfold envMove; split <;> simp [*]
@[simp] theorem envMove_e (s : State) : (envMove s).e = s.e := by unfold envMove; split <;> simp [*]
@[simp] theorem envMove_dir (s : State) : (envMove s).dir = s.dir := by unfold envMove; split <;> simp [*]
@[simp] theorem envMove_cnt (s : State) : (envMove s).cnt = s.cnt := by unfold envMove; split <;> simp [*]
@[simp] theorem envMove_rst (s : State) : (envMove s).rst = s.rst := by unfold envMove; split <;> simp [*]
@[simp] theorem envMove_requests (s : State) : (envMove s).requests = s.requests := by unfold envMove; split <;> simp [*]
@[simp] theorem envMove_portIn (s : State) : (envMove s).portIn = s.portIn := by unfold envMove; split <;> simp [*]
@[simp] theorem envMove_draws (s : State) : (envMove s).draws = s.draws := by unfold envMove; split <;> simp [*]
@[simp] theorem envMove_foreign (s : State) : (envMove s).foreign = s.foreign.tail := by unfold envMove; split <;> simp [*]
@[simp] theorem envMove_trace (s : State) : (envMove s).trace = s.trace := by unfold envMove; split <;> simp [*]
@[simp] theorem envMove_responses (s : State) : (envMove s).responses = s.responses := by unfold envMove; split <;> simp [*]
@[simp] theorem envMove_answered (s : State) : (envMove s).answered = s.answered := by unfold envMove; split <;> simp [*]

/-- The environment leaves the data field alone (R24). -/
@[simp] theorem envMove_dataOut (s : State) : (envMove s).dataOut = s.dataOut := by
  unfold envMove; split <;> simp [State.dataOut, dataField_mergeForeign]

/-- The foreign bits after the environment's move (R24). -/
theorem envMove_foreignBits (s : State) :
    foreignBits s.cfg (envMove s).portOut =
      match s.foreign with
      | some w :: _ => foreignBits s.cfg w
      | _ => foreignBits s.cfg s.portOut := by
  unfold envMove; split <;> simp [*, foreignBits_mergeForeign]

theorem envMove_portOut_lt (s : State) (h : s.portOut < 2 ^ s.cfg.portW) : (envMove s).portOut < 2 ^ s.cfg.portW := by
  unfold envMove; split
  · exact h
  · exact h
  · exact mergeForeign_lt _ _

@[simp] theorem envMove_answer (s : State) (i : Nat) : (envMove s).answer i = s.answer i := by simp [State.answer]

/-! ### `perform`: one bus step -/

@[simp] theorem perform_cfg (x : BusStep) (s : State) : (perform x s).cfg = s.cfg := by cases x <;> simp [perform, busEffect]
@[simp] theorem perform_op (x : BusStep) (s : State) : (perform x s).op = s.op := by cases x <;> simp [perform, busEffect]
@[simp] theorem perform_a (x : BusStep) (s : State) : (perform x s).a = s.a := by cases x <;> simp [perform, busEffect]
@[simp] theorem perform_b (x : BusStep) (s : State) : (perform x s).b = s.b := by cases x <;> simp [perform, busEffect]
@[simp] theorem perform_seq (x : BusStep) (s : State) : (perform x s).seq = s.seq := by cases x <;> simp [perform, busEffect]
@[simp] theorem perform_status (x : BusStep) (s : State) : (perform x s).status = s.status := by cases x <;> simp [perform, busEffect]
@[simp] theorem perform_initialized (x : BusStep) (s : State) : (perform x s).initialized = s.initialized := by cases x <;> simp [perform, busEffect]
@[simp] theorem perform_enabled (x : BusStep) (s : State) : (perform x s).enabled = s.enabled := by cases x <;> simp [perform, busEffect]
@[simp] theorem perform_cnt (x : BusStep) (s : State) : (perform x s).cnt = s.cnt := by cases x <;> simp [perform, busEffect]
@[simp] theorem perform_rst (x : BusStep) (s : State) : (perform x s).rst = s.rst := by cases x <;> simp [perform, busEffect]
@[simp] theorem perform_requests (x : BusStep) (s : State) : (perform x s).requests = s.requests := by cases x <;> simp [perform, busEffect]
@[simp] theorem perform_responses (x : BusStep) (s : State) : (perform x s).responses = s.responses := by cases x <;> simp [perform, busEffect]
@[simp] theorem perform_answered (x : BusStep) (s : State) : (perform x s).answered = s.answered := by cases x <;> simp [perform, busEffect]
@[simp] theorem perform_rs (x : BusStep) (s : State) :
    (perform x s).rs = (match x with | .setRS v => v | _ => s.rs) := by cases x <;> simp [perform, busEffect]
@[simp] theorem perform_rw (x : BusStep) (s : State) :
    (perform x s).rw = (match x with | .setRW v => v | _ => s.rw) := by cases x <;> simp [perform, busEffect]
@[simp] theorem perform_e (x : BusStep) (s : State) :
    (perform x s).e = (match x with | .setE v => v | _ => s.e) := by cases x <;> simp [perform, busEffect]
@[simp] theorem perform_dir (x : BusStep) (s : State) :
    (perform x s).dir = (match x with | .setDir v => v | _ => s.dir) := by cases x <;> simp [perform, busEffect]
@[simp] theorem perform_flag (x : BusStep) (s : State) :
    (perform x s).flag = (match x with | .sample => busyOf (portReadNibble s.cfg (s.answer 0)) | _ => s.flag) := by
  cases x <;> simp [perform, busEffect]
@[simp] theorem perform_draws (x : BusStep) (s : State) :
    (perform x s).draws = (match x with | .sample => s.draws + 1 | _ => s.draws) := by cases x <;> simp [perform, busEffect]
@[simp] theorem perform_portIn (x : BusStep) (s : State) :
    (perform x s).portIn = (match x with | .sample => s.portIn.tail | _ => s.portIn) := by
  cases x <;> simp [perform, busEffect]
@[simp] theorem perform_foreign (x : BusStep) (s : State) : (perform x s).foreign = s.foreign.tail := by
  cases x <;> simp [perform, busEffect]
@[simp] theorem perform_trace (x : BusStep) (s : State) : (perform x s).trace = s.trace ++ [busToken x s] := by
  cases x <;> simp [perform, busEffect, busToken]

/-- The data field after a bus step: only `WriteNibble` writes it (R73). -/
@[simp] theorem perform_dataOut (x : BusStep) (s : State) (h : s.cfg.wf = true) :
    (perform x s).dataOut = (match x with | .writeNibble v => v | _ => s.dataOut) := by
  have e := envMove_dataOut s
  cases x <;> simp [State.dataOut, perform, busEffect, dataField_portWriteNibble h] at e ⊢ <;> exact e

/-- No bus step changes the foreign bits: they are the environment's (R24, R32). -/
theorem perform_foreignBits (x : BusStep) (s : State) :
    foreignBits s.cfg (perform x s).portOut = foreignBits s.cfg (envMove s).portOut := by
  cases x <;> simp [perform, busEffect, foreignBits_portWriteNibble]

/-- The port word keeps its width (R24). -/
theorem perform_portOut_lt (x : BusStep) (s : State) (h : s.portOut < 2 ^ s.cfg.portW) :
    (perform x s).portOut < 2 ^ s.cfg.portW := by
  cases x <;> simp [perform, busEffect, portWriteNibble_lt, envMove_portOut_lt s h]

/-! ### Acceptance, completion, reset -/

@[simp] theorem andThen_next (s : State) (f : State → Host.Outcome State Fault Refusal) : andThen (.next s) f = f s := rfl

@[simp] theorem accept_cfg (r : Rule) (s : State) : (accept r s).cfg = s.cfg := rfl
@[simp] theorem accept_op (r : Rule) (s : State) : (accept r s).op = r.op := rfl
@[simp] theorem accept_a (r : Rule) (s : State) : (accept r s).a = r.a := rfl
@[simp] theorem accept_b (r : Rule) (s : State) : (accept r s).b = r.b := rfl
@[simp] theorem accept_seq (r : Rule) (s : State) : (accept r s).seq = .run r.op 0 r.items r.fin := rfl
@[simp] theorem accept_flag (r : Rule) (s : State) : (accept r s).flag = s.flag := rfl
@[simp] theorem accept_status (r : Rule) (s : State) : (accept r s).status = 0#3 := rfl
@[simp] theorem accept_initialized (r : Rule) (s : State) : (accept r s).initialized = s.initialized := rfl
@[simp] theorem accept_enabled (r : Rule) (s : State) : (accept r s).enabled = s.enabled := rfl
@[simp] theorem accept_rs (r : Rule) (s : State) : (accept r s).rs = s.rs := rfl
@[simp] theorem accept_rw (r : Rule) (s : State) : (accept r s).rw = s.rw := rfl
@[simp] theorem accept_e (r : Rule) (s : State) : (accept r s).e = s.e := rfl
@[simp] theorem accept_dir (r : Rule) (s : State) : (accept r s).dir = s.dir := rfl
@[simp] theorem accept_portOut (r : Rule) (s : State) : (accept r s).portOut = s.portOut := rfl
@[simp] theorem accept_cnt (r : Rule) (s : State) : (accept r s).cnt = s.cnt := rfl
@[simp] theorem accept_rst (r : Rule) (s : State) : (accept r s).rst = s.rst := rfl
@[simp] theorem accept_requests (r : Rule) (s : State) : (accept r s).requests = s.requests := rfl
@[simp] theorem accept_portIn (r : Rule) (s : State) : (accept r s).portIn = s.portIn := rfl
@[simp] theorem accept_draws (r : Rule) (s : State) : (accept r s).draws = s.draws := rfl
@[simp] theorem accept_foreign (r : Rule) (s : State) : (accept r s).foreign = s.foreign := rfl
@[simp] theorem accept_trace (r : Rule) (s : State) : (accept r s).trace = s.trace := rfl
@[simp] theorem accept_responses (r : Rule) (s : State) : (accept r s).responses = s.responses := rfl
@[simp] theorem accept_answered (r : Rule) (s : State) : (accept r s).answered = false := rfl

@[simp] theorem complete_cfg (f : AtCompletion) (s : State) : (complete f s).cfg = s.cfg := rfl
@[simp] theorem complete_op (f : AtCompletion) (s : State) : (complete f s).op = s.op := rfl
@[simp] theorem complete_a (f : AtCompletion) (s : State) : (complete f s).a = s.a := rfl
@[simp] theorem complete_b (f : AtCompletion) (s : State) : (complete f s).b = s.b := rfl
@[simp] theorem complete_seq (f : AtCompletion) (s : State) : (complete f s).seq = .idle := rfl
@[simp] theorem complete_flag (f : AtCompletion) (s : State) : (complete f s).flag = s.flag := rfl
@[simp] theorem complete_status (f : AtCompletion) (s : State) : (complete f s).status = s.status := rfl
@[simp] theorem complete_initialized (f : AtCompletion) (s : State) : (complete f s).initialized = (s.initialized || f.setsInitialized) := rfl
@[simp] theorem complete_enabled (f : AtCompletion) (s : State) : (complete f s).enabled = (s.enabled || f.setsEnabled) := rfl
@[simp] theorem complete_rs (f : AtCompletion) (s : State) : (complete f s).rs = s.rs := rfl
@[simp] theorem complete_rw (f : AtCompletion) (s : State) : (complete f s).rw = s.rw := rfl
@[simp] theorem complete_e (f : AtCompletion) (s : State) : (complete f s).e = s.e := rfl
@[simp] theorem complete_dir (f : AtCompletion) (s : State) : (complete f s).dir = s.dir := rfl
@[simp] theorem complete_portOut (f : AtCompletion) (s : State) : (complete f s).portOut = s.portOut := rfl
@[simp] theorem complete_cnt (f : AtCompletion) (s : State) : (complete f s).cnt = s.cnt := rfl
@[simp] theorem complete_rst (f : AtCompletion) (s : State) : (complete f s).rst = s.rst := rfl
@[simp] theorem complete_requests (f : AtCompletion) (s : State) : (complete f s).requests = s.requests := rfl
@[simp] theorem complete_portIn (f : AtCompletion) (s : State) : (complete f s).portIn = s.portIn := rfl
@[simp] theorem complete_draws (f : AtCompletion) (s : State) : (complete f s).draws = s.draws := rfl
@[simp] theorem complete_foreign (f : AtCompletion) (s : State) : (complete f s).foreign = s.foreign := rfl
@[simp] theorem complete_trace (f : AtCompletion) (s : State) : (complete f s).trace = s.trace := rfl
@[simp] theorem complete_responses (f : AtCompletion) (s : State) : (complete f s).responses = s.responses ++ [s.status] := rfl
@[simp] theorem complete_answered (f : AtCompletion) (s : State) : (complete f s).answered = true := rfl

@[simp] theorem applyReset_cfg (s : State) : (applyReset s).cfg = s.cfg := rfl
@[simp] theorem applyReset_op (s : State) : (applyReset s).op = 0 := rfl
@[simp] theorem applyReset_a (s : State) : (applyReset s).a = 0 := rfl
@[simp] theorem applyReset_b (s : State) : (applyReset s).b = 0 := rfl
@[simp] theorem applyReset_seq (s : State) : (applyReset s).seq = .idle := rfl
@[simp] theorem applyReset_flag (s : State) : (applyReset s).flag = false := rfl
@[simp] theorem applyReset_status (s : State) : (applyReset s).status = 0#3 := rfl
@[simp] theorem applyReset_initialized (s : State) : (applyReset s).initialized = false := rfl
@[simp] theorem applyReset_enabled (s : State) : (applyReset s).enabled = false := rfl
@[simp] theorem applyReset_rs (s : State) : (applyReset s).rs = false := rfl
@[simp] theorem applyReset_rw (s : State) : (applyReset s).rw = false := rfl
@[simp] theorem applyReset_e (s : State) : (applyReset s).e = false := rfl
@[simp] theorem applyReset_dir (s : State) : (applyReset s).dir = .input := rfl
@[simp] theorem applyReset_portOut (s : State) : (applyReset s).portOut = portWriteNibble s.cfg s.portOut 0 := rfl
@[simp] theorem applyReset_cnt (s : State) : (applyReset s).cnt = 0 := rfl
@[simp] theorem applyReset_rst (s : State) : (applyReset s).rst = false := rfl
@[simp] theorem applyReset_requests (s : State) : (applyReset s).requests = s.requests := rfl
@[simp] theorem applyReset_portIn (s : State) : (applyReset s).portIn = s.portIn := rfl
@[simp] theorem applyReset_draws (s : State) : (applyReset s).draws = s.draws := rfl
@[simp] theorem applyReset_foreign (s : State) : (applyReset s).foreign = s.foreign := rfl
@[simp] theorem applyReset_trace (s : State) : (applyReset s).trace = s.trace := rfl
@[simp] theorem applyReset_responses (s : State) : (applyReset s).responses = s.responses := rfl
@[simp] theorem applyReset_answered (s : State) : (applyReset s).answered = s.answered := rfl

end Sys2Proof.Machine
end

