-- ==== Sys2Proof/Laws/Run.lean ====
section
/-! SUPPORT. What running bus steps and items does, said once per routine: `Ran` is everything that is the same for all of them;
`performs_transferSteps`, `poll_spec`, `writeByte_spec`, `writes_spec`, `modeSelect_spec` add what each routine does to the pins,
`FLAG`, `CNT` and `STATUS`. -/

namespace Sys2Proof.Machine

open Sys2Proof.Safety

/-- From `s` to `t` exactly the bus steps `toks` were performed, `n` of them samples; nothing that bus steps do not
touch has changed. -/
structure Ran (s t : State) (toks : List Token) (n : Nat) : Prop where
  cfg : t.cfg = s.cfg
  op : t.op = s.op
  a : t.a = s.a
  b : t.b = s.b
  seq : t.seq = s.seq
  enabled : t.enabled = s.enabled
  rst : t.rst = s.rst
  requests : t.requests = s.requests
  responses : t.responses = s.responses
  answered : t.answered = s.answered
  trace : t.trace = s.trace ++ toks
  portIn : t.portIn = s.portIn.drop n
  draws : t.draws = s.draws + n
  foreign : t.foreign = s.foreign.drop toks.length
  foreignBits : foreignBits s.cfg t.portOut = foreignAfter s.cfg (foreignBits s.cfg s.portOut) (s.foreign.take toks.length)
  port : s.portOut < 2 ^ s.cfg.portW → t.portOut < 2 ^ s.cfg.portW

theorem foreignAfter_append (c : Params) (p : Nat) (l m : List (Option Nat)) :
    foreignAfter c p (l ++ m) = foreignAfter c (foreignAfter c p l) m := by
  simp [foreignAfter, List.foldl_append]

theorem Ran.refl (s : State) : Ran s s [] 0 := by
  constructor <;> simp [foreignAfter]

theorem Ran.trans {s t u : State} {l m : List Token} {i j : Nat} (h : Ran s t l i) (g : Ran t u m j) :
    Ran s u (l ++ m) (i + j) where
  cfg := g.cfg.trans h.cfg
  op := g.op.trans h.op
  a := g.a.trans h.a
  b := g.b.trans h.b
  seq := g.seq.trans h.seq
  enabled := g.enabled.trans h.enabled
  rst := g.rst.trans h.rst
  requests := g.requests.trans h.requests
  responses := g.responses.trans h.responses
  answered := g.answered.trans h.answered
  trace := by rw [g.trace, h.trace, List.append_assoc]
  portIn := by rw [g.portIn, h.portIn, List.drop_drop]
  draws := by rw [g.draws, h.draws, Nat.add_assoc]
  foreign := by rw [g.foreign, h.foreign, List.drop_drop, List.length_append]
  foreignBits := by
    rw [← h.cfg, g.foreignBits, h.cfg, h.foreignBits, h.foreign, List.length_append, List.take_add, foreignAfter_append]
  port := fun hp => by
    have := g.port (by rw [h.cfg]; exact h.port hp)
    rwa [h.cfg] at this

/-- `Ran` says nothing of `CNT`, `STATUS`, `INITIALIZED` and `FLAG`. -/
theorem Ran.of_eq {s t u : State} {l : List Token} {n : Nat} (h : Ran s t l n)
    (e : u = { t with cnt := u.cnt, status := u.status, initialized := u.initialized, flag := u.flag }) : Ran s u l n := by
  rw [e]
  exact ⟨h.1, h.2, h.3, h.4, h.5, h.6, h.7, h.8, h.9, h.10, h.11, h.12, h.13, h.14, h.15, h.16⟩

/-- The answers to the samples still to come (R76). -/
theorem Ran.answer {s t : State} {l : List Token} {n : Nat} (h : Ran s t l n) (i : Nat) : t.answer i = s.answer (n + i) := by
  simp [State.answer, h.portIn, h.draws, Nat.add_assoc]

theorem Ran.busyAt {s t : State} {l : List Token} {n : Nat} (h : Ran s t l n) (i : Nat) : busyAt t i = busyAt s (n + i) := by
  rw [Safety.busyAt, Safety.busyAt, h.answer, h.cfg]

theorem Ran.nibbleAt {s t : State} {l : List Token} {n : Nat} (h : Ran s t l n) (i : Nat) :
    nibbleAt t i = nibbleAt s (n + i) := by simp [Safety.nibbleAt, h.answer, h.cfg]

theorem Ran.pollCount {s t : State} {l : List Token} {n : Nat} (h : Ran s t l n) (j : Nat) :
    pollCount t j = pollCount s (n + j) := by simp [Safety.pollCount, h.busyAt, h.cfg, Nat.add_assoc]

theorem Ran.timesOut {s t : State} {l : List Token} {n : Nat} (h : Ran s t l n) (j : Nat) :
    timesOut t j = timesOut s (n + j) := by simp [Safety.timesOut, h.busyAt, h.cfg, Nat.add_assoc]

theorem Ran.pollTokens {s t : State} {l : List Token} {n : Nat} (h : Ran s t l n) (j : Nat) :
    pollTokens t j = pollTokens s (n + j) := by
  simp [Safety.pollTokens, h.pollCount, h.nibbleAt, h.cfg, Nat.add_assoc]

theorem Ran.writeTokens {s t : State} {l : List Token} {n : Nat} (h : Ran s t l n) (j : Nat) (rs : Bool) (b : Byte) :
    writeTokens t j rs b = writeTokens s (n + j) rs b := by simp [Safety.writeTokens, h.pollTokens]

theorem Ran.writes {s t : State} {l : List Token} {n : Nat} (h : Ran s t l n) (bs : List Byte) : ∀ j,
    writesTokens t j bs = writesTokens s (n + j) bs ∧ writesCount t j bs = writesCount s (n + j) bs ∧
    writesTimeOut t j bs = writesTimeOut s (n + j) bs ∧ lastPollAt s (n + j) bs = n + lastPollAt t j bs := by
  induction bs with
  | nil => intro j; simp [Safety.writesTokens, writesCount, writesTimeOut, lastPollAt]
  | cons b bs ih =>
    intro j
    have g := ih (j + Safety.pollCount t j)
    rw [h.pollCount, ← Nat.add_assoc] at g
    refine ⟨?_, ?_, ?_, ?_⟩
    · simp [Safety.writesTokens, h.writeTokens, h.pollCount, g.1, Nat.add_assoc]
    · simp [writesCount, h.pollCount, g.2.1, Nat.add_assoc]
    · simp [writesTimeOut, h.timesOut, h.pollCount, g.2.2.1, Nat.add_assoc]
    · cases bs with
      | nil => simp [lastPollAt]
      | cons b' bs' => simpa [lastPollAt, h.pollCount, Nat.add_assoc] using g.2.2.2

/-- Everything one bus step does that every bus step does. -/
theorem perform_ran (x : BusStep) (s : State) :
    Ran s (perform x s) [busToken x s] (match x with | .sample => 1 | _ => 0) := by
  constructor
  case foreignBits =>
    rw [perform_foreignBits, envMove_foreignBits]
    cases hf : s.foreign with
    | nil => simp [foreignAfter]
    | cons m ms => cases m <;> simp [foreignAfter]
  case port => exact perform_portOut_lt x s
  case portIn => cases x <;> simp
  case draws => cases x <;> simp
  all_goals simp

theorem runItems_append (l m : List Item) (s : State) : runItems (l ++ m) s = runItems m (runItems l s) := by
  simp [runItems, List.foldl_append]

@[simp] theorem runItems_nil (s : State) : runItems [] s = s := rfl

@[simp] theorem runItems_cons (it : Item) (l : List Item) (s : State) : runItems (it :: l) s = runItems l (runItem it s) := rfl

theorem runItems_map_bus (l : List BusStep) (s : State) : runItems (l.map .bus) s = performs l s := by
  simp [runItems, performs, List.foldl_map, runItem]

@[simp] theorem performs_nil (s : State) : performs [] s = s := rfl

@[simp] theorem performs_cons (x : BusStep) (l : List BusStep) (s : State) : performs (x :: l) s = performs l (perform x s) := rfl

/-- `Transfer(rs, n)` (R80). -/
theorem transfer_spec (rs : Bool) (n : Nibble) (s : State) (hw : s.cfg.wf = true) :
    Ran s (runItems (transfer rs n) s) (transferTokens rs n) 0 ∧
    (runItems (transfer rs n) s).rs = rs ∧ (runItems (transfer rs n) s).rw = false ∧ (runItems (transfer rs n) s).e = false ∧
    (runItems (transfer rs n) s).dir = s.dir ∧ (runItems (transfer rs n) s).dataOut = n ∧
    (runItems (transfer rs n) s).flag = s.flag ∧ (runItems (transfer rs n) s).cnt = s.cnt ∧
    (runItems (transfer rs n) s).status = s.status ∧ (runItems (transfer rs n) s).initialized = s.initialized := by
  rw [transfer, runItems_map_bus]
  refine ⟨?_, ?_⟩
  · have h := ((((((perform_ran (.setRS rs) s).trans (perform_ran (.setRW false) _)).trans
      (perform_ran (.delayUs Config.tSetupUs) _)).trans (perform_ran (.writeNibble n) _)).trans
      (perform_ran (.setE true) _)).trans (perform_ran (.delayUs Config.tPulseUs) _)).trans (perform_ran (.setE false) _)
    simpa [transferSteps, transferTokens, busToken, Config.tSetupUs, Config.tPulseUs] using h
  · simp [transferSteps, hw]

/-! ### The poll -/

theorem busyOf_answer (s : State) : busyOf (portReadNibble s.cfg (s.answer 0)) = busyAt s 0 :=
  busyOf_portReadNibble _

/-- Steps 6a to 6h of R91. -/
theorem pollPulses_spec (s : State) (hw : s.cfg.wf = true) :
    let t := performs (pollPulses s.cfg) s
    Ran s t [.e true, .us s.cfg.tPollSetupUs, .s (nibbleAt s 0), .e false, .us s.cfg.tPollGapUs, .e true,
      .us s.cfg.tPollSetupUs, .e false] 1 ∧
    t.rs = s.rs ∧ t.rw = s.rw ∧ t.e = false ∧ t.dir = s.dir ∧ t.dataOut = s.dataOut ∧
    t.flag = busyAt s 0 ∧ t.cnt = s.cnt ∧ t.status = s.status ∧ t.initialized = s.initialized := by
  have ans (x : BusStep) (u : State) (h : x ≠ .sample) : (perform x u).answer 0 = u.answer 0 := by
    have := (perform_ran x u).answer 0
    cases x <;> simp_all
  refine ⟨?_, ?_⟩
  · have h := (((((((perform_ran (.setE true) s).trans (perform_ran (.delayUs s.cfg.tPollSetupUs) _)).trans
      (perform_ran .sample _)).trans (perform_ran (.setE false) _)).trans (perform_ran (.delayUs s.cfg.tPollGapUs) _)).trans
      (perform_ran (.setE true) _)).trans (perform_ran (.delayUs s.cfg.tPollSetupUs) _)).trans (perform_ran (.setE false) _)
    simpa [pollPulses, busToken, ans, portReadNibble, nibbleAt] using h
  · simp [pollPulses, hw, ans, busyOf_answer]

/-- One pass of the loop (R91 steps 6a to 6j). -/
theorem pollIteration_spec (s : State) (hw : s.cfg.wf = true) :
    let t := pollIteration s
    Ran s t (passTokens s.cfg (nibbleAt s 0)) 1 ∧
    t.rs = s.rs ∧ t.rw = s.rw ∧ t.e = false ∧ t.dir = s.dir ∧ t.dataOut = s.dataOut ∧
    t.flag = busyAt s 0 ∧ t.cnt = s.cnt - 1 ∧ t.status = s.status ∧ t.initialized = s.initialized := by
  intro t
  obtain ⟨hr, h1, h2, h3, h4, h5, h6, h7, h8, h9⟩ := pollPulses_spec s hw
  have hb : busyAt s 0 = (nibbleAt s 0).getLsbD 3 := (busyOf_answer s).symm
  have hdec (u : State) (l : List Token) (n : Nat) (g : Ran s u l n) : Ran s (decrementCnt u) l n := g.of_eq rfl
  have hret : t = decrementCnt (retryDelay (performs (pollPulses s.cfg) s)) := rfl
  rw [retryDelay, h6, hr.cfg, hb] at hret
  by_cases hf : (nibbleAt s 0).getLsbD 3
  · rw [if_pos hf] at hret
    have g := hdec _ _ _ (hr.trans (perform_ran (.delayUs s.cfg.tPollRetryUs) _))
    rw [hret]
    refine ⟨by simpa only [passTokens, hf, if_true, busToken] using g, ?_⟩
    have hw' : (performs (pollPulses s.cfg) s).cfg.wf = true := by rw [hr.cfg]; exact hw
    have hd := perform_dataOut (.delayUs s.cfg.tPollRetryUs) _ hw'
    simp only at hd
    exact ⟨by simp [decrementCnt, h1], by simp [decrementCnt, h2], by simp [decrementCnt, h3], by simp [decrementCnt, h4],
      hd.trans h5, by simp [decrementCnt, h6], by simp [decrementCnt, h7], by simp [decrementCnt, h8],
      by simp [decrementCnt, h9]⟩
  · rw [if_neg hf] at hret
    have g := hdec _ _ _ hr
    rw [hret]
    refine ⟨by simpa only [passTokens, hf, if_false, List.append_nil, Bool.false_eq_true] using g, ?_⟩
    exact ⟨h1, h2, h3, h4, h5, h6, congrArg (· - 1) h7, h8, h9⟩

/-- The loop, with as many passes allowed as `CNT` says (R91, R93, R94). -/
theorem pollPasses_spec (fuel : Nat) : ∀ s : State, s.cfg.wf = true → s.cnt = fuel + 1 →
    let t := pollPasses (fuel + 1) s
    let k := passes (busyAt s) (fuel + 1)
    Ran s t ((List.range k).flatMap fun i => passTokens s.cfg (nibbleAt s i)) k ∧
    t.rs = s.rs ∧ t.rw = s.rw ∧ t.e = false ∧ t.dir = s.dir ∧ t.dataOut = s.dataOut ∧
    t.flag = ((List.range (fuel + 1)).all fun i => busyAt s i) ∧ t.cnt = fuel + 1 - k ∧
    t.status = s.status ∧ t.initialized = s.initialized := by
  induction fuel with
  | zero =>
    intro s hw hc
    obtain ⟨hr, h1, h2, h3, h4, h5, h6, h7, h8, h9⟩ := pollIteration_spec s hw
    have hl : leavesLoop (pollIteration s) = true := by simp [leavesLoop, h7, hc]
    have hk : passes (busyAt s) 1 = 1 := by simp [passes]
    simp only [pollPasses, hl, if_true, Nat.zero_add, hk]
    refine ⟨by simpa [List.range_succ] using hr, h1, h2, h3, h4, h5, by simpa [List.range_succ] using h6, by simp [h7, hc], h8, h9⟩
  | succ fuel ih =>
    intro s hw hc
    obtain ⟨hr, h1, h2, h3, h4, h5, h6, h7, h8, h9⟩ := pollIteration_spec s hw
    rw [pollPasses]
    cases hb : busyAt s 0 with
    | false =>
      have hl : leavesLoop (pollIteration s) = true := by simp [leavesLoop, h6, hb]
      have hk : passes (busyAt s) (fuel + 1 + 1) = 1 := by simp [passes, hb]
      simp only [hl, if_true, hk]
      refine ⟨by simpa [List.range_succ] using hr, h1, h2, h3, h4, h5, ?_, by rw [h7, hc], h8, h9⟩
      rw [h6, hb, eq_comm, List.all_eq_false]
      exact ⟨0, by simp, by simp [hb]⟩
    | true =>
      have hl : leavesLoop (pollIteration s) = false := by simp [leavesLoop, h6, hb, h7, hc]
      have hk : passes (busyAt s) (fuel + 1 + 1) = passes (busyAt (pollIteration s)) (fuel + 1) + 1 := by
        rw [passes, if_pos hb]
        congr 2
        funext i
        rw [hr.busyAt, Nat.add_comm]
      obtain ⟨gr, g1, g2, g3, g4, g5, g6, g7, g8, g9⟩ := ih (pollIteration s) (by rw [hr.cfg]; exact hw) (by rw [h7, hc]; rfl)
      simp only [hl, Bool.false_eq_true, if_false, hk]
      refine ⟨?_, g1.trans h1, g2.trans h2, g3, g4.trans h4, g5.trans h5, ?_, ?_, g8.trans h8, g9.trans h9⟩
      · have := hr.trans gr
        rw [Nat.add_comm 1] at this
        rw [List.range_succ_eq_map, List.flatMap_cons, List.flatMap_map]
        simpa only [hr.cfg, hr.nibbleAt, Nat.add_comm 1] using this
      · rw [g6, List.range_succ_eq_map (n := fuel + 1), List.all_cons, hb, Bool.true_and, List.all_map]
        congr 1
        funext i
        simp [hr.busyAt, Nat.add_comm]
      · rw [g7]; omega

/-- R91 step 9. -/
theorem recordPollOutcome_status (s : State) : (recordPollOutcome s).status = s.status ||| timeoutStatus s.flag := by
  cases h : s.flag <;> simp [recordPollOutcome, h, timeoutStatus, recordOutcome, Cause.bit]

/-- The body of the loop as items is the first pass and the passes after it. -/
theorem pollBody_eq (s : State) (n : Nat) (hw : s.cfg.wf = true) (h : s.cnt = n + 1) :
    runItems (pollBody s.cfg) s = pollPasses (n + 1) s := by
  have hc : (pollIteration s).cnt = n := by rw [(pollIteration_spec s hw).2.2.2.2.2.2.2.1, h]; rfl
  rw [pollBody, runItems_append, runItems_map_bus]
  change finishLoop (retryDelay (performs (pollPulses s.cfg) s)) = _
  rw [pollPasses]
  change (if leavesLoop (pollIteration s) then pollIteration s else pollPasses (pollIteration s).cnt (pollIteration s)) = _
  rw [hc]

/-- `Poll()` (R91 to R95): the trace, the restored bus, `FLAG`, `CNT` and `STATUS[0]`. -/
theorem poll_spec (s : State) (hw : s.cfg.wf = true) :
    let t := runItems (pollItems s.cfg) s
    Ran s t (pollTokens s 0) (pollCount s 0) ∧ BusRestored t false 0 ∧ PollLeft s t 0 ∧
    t.status = s.status ||| timeoutStatus (timesOut s 0) ∧ t.initialized = s.initialized := by
  intro t
  obtain ⟨hb1, -⟩ := Params.wf_budget hw
  obtain ⟨n, hn⟩ := Nat.exists_eq_add_of_lt hb1
  let s1 := perform (.setRW true) (perform (.setRS false) (perform (.setDir .input) (perform (.writeNibble 0) s)))
  let s2 : State := { s1 with cnt := s1.cfg.pollBudget }
  have r1 : Ran s s1 [.d 0, .dir .input, .rs false, .rw true] 0 := by
    have h := (((perform_ran (.writeNibble 0) s).trans (perform_ran (.setDir .input) _)).trans
      (perform_ran (.setRS false) _)).trans (perform_ran (.setRW true) _)
    simp [busToken] at h
    exact h
  have r2 : Ran s s2 [.d 0, .dir .input, .rs false, .rw true] 0 := r1.of_eq rfl
  have hc2 : s2.cnt = (s.cfg.pollBudget - 1) + 1 := by
    show s1.cfg.pollBudget = _
    rw [r1.cfg]; omega
  have hw2 : s2.cfg.wf = true := by rw [r2.cfg]; exact hw
  have et : t = recordPollOutcome (perform (.setDir .output) (perform (.setRW false)
      (pollPasses ((s.cfg.pollBudget - 1) + 1) s2))) := by
    rw [← pollBody_eq s2 _ hw2 hc2, r2.cfg]
    show runItems (pollItems s.cfg) s = _
    rw [pollItems, runItems_append, runItems_append]
    simp only [runItems_cons, runItems_nil, runItem]
    rfl
  obtain ⟨hr, h1, h2, h3, h4, h5, h6, h7, h8, h9⟩ := pollPasses_spec (s.cfg.pollBudget - 1) s2 hw2 hc2
  set u := pollPasses ((s.cfg.pollBudget - 1) + 1) s2 with hu
  have hwu : u.cfg.wf = true := by rw [hr.cfg]; exact hw2
  have hk : passes (busyAt s2) (s.cfg.pollBudget - 1 + 1) = pollCount s 0 := by
    rw [Safety.pollCount, show s.cfg.pollBudget - 1 + 1 = s.cfg.pollBudget by omega]
    congr 1; funext i; rw [r2.busyAt]
  have hflag : u.flag = timesOut s 0 := by
    rw [h6, Safety.timesOut, show s.cfg.pollBudget - 1 + 1 = s.cfg.pollBudget by omega]
    congr 1; funext i; rw [r2.busyAt]
  rw [hk] at hr h7
  let v := perform (.setDir .output) (perform (.setRW false) u)
  have hv : t = recordPollOutcome v := et
  have hvf : v.flag = timesOut s 0 := by simpa [v] using hflag
  have rv : Ran s v (pollTokens s 0) (pollCount s 0) := by
    have h := (r2.trans hr).trans ((perform_ran (.setRW false) u).trans (perform_ran (.setDir .output) _))
    simp only [Safety.pollTokens, Nat.zero_add]
    simpa [busToken, r2.cfg, r2.nibbleAt] using h
  have hrec : recordPollOutcome v = { v with status := (recordPollOutcome v).status } := by
    unfold recordPollOutcome; split <;> rfl
  rw [hv]
  refine ⟨rv.of_eq (by rw [hrec]), ?_, ?_, ?_, ?_⟩
  · rw [hrec]
    refine ⟨?_, ?_, ?_, ?_, ?_⟩
    · show v.rs = false; simp [v, h1, s2, s1]
    · show v.rw = false; simp [v]
    · show v.e = false; simp [v, h3]
    · show v.dir = .output; simp [v]
    · show v.dataOut = 0
      have e2 : s2.dataOut = s1.dataOut := rfl
      simp [v, hwu, h5, e2, s1, hw]
  · rw [hrec]
    exact ⟨hvf, by show v.cnt = _; simp [v, h7]; omega⟩
  · rw [recordPollOutcome_status, hvf]
    show v.status ||| _ = _
    simp [v, h8, s2, s1]
  · rw [hrec]
    show v.initialized = _
    simp [v, h9, s2, s1]

/-! ### Byte writes -/

/-- `WriteByte(rs, b)` (R101). -/
theorem writeByte_spec (rs : Bool) (b : Byte) (s : State) (hw : s.cfg.wf = true) :
    let t := runItems (writeByte s.cfg rs b) s
    Ran s t (writeTokens s 0 rs b) (pollCount s 0) ∧ BusRestored t rs (lowNibble b) ∧ PollLeft s t 0 ∧
    t.status = s.status ||| timeoutStatus (timesOut s 0) ∧ t.initialized = s.initialized := by
  intro t
  obtain ⟨hp, pb, pl, ps, pi⟩ := poll_spec s hw
  set p := runItems (pollItems s.cfg) s
  have hwp : p.cfg.wf = true := by rw [hp.cfg]; exact hw
  obtain ⟨h1, a1, a2, a3, a4, a5, a6, a7, a8, a9⟩ := transfer_spec rs (highNibble b) p hwp
  set q := runItems (transfer rs (highNibble b)) p
  have hwq : q.cfg.wf = true := by rw [h1.cfg]; exact hwp
  obtain ⟨h2, b1, b2, b3, b4, b5, b6, b7, b8, b9⟩ := transfer_spec rs (lowNibble b) q hwq
  have et : t = runItems (transfer rs (lowNibble b)) q := by
    show runItems (writeByte s.cfg rs b) s = _
    rw [writeByte, runItems_append, runItems_append]
  rw [et]
  refine ⟨?_, ⟨b1, b2, b3, by rw [b4, a4, pb.dir], b5⟩, ⟨?_, ?_⟩, ?_, ?_⟩
  · simpa [writeTokens, highNibble, lowNibble] using (hp.trans h1).trans h2
  · rw [b6, a6, pl.flag]
  · rw [b7, a7, pl.cnt]
  · rw [b8, a8, ps]
  · rw [b9, a9, pi]

/-- Command writes one after the other. -/
theorem writes_spec (bs : List Byte) : ∀ s : State, s.cfg.wf = true →
    let t := runItems (bs.flatMap (writeByte s.cfg false)) s
    Ran s t (writesTokens s 0 bs) (writesCount s 0 bs) ∧
    t.status = s.status ||| timeoutStatus (writesTimeOut s 0 bs) ∧ t.initialized = s.initialized ∧
    (∀ b, bs.getLast? = some b → BusRestored t false (lowNibble b) ∧ PollLeft s t (lastPollAt s 0 bs)) := by
  induction bs with
  | nil =>
    intro s _
    exact ⟨Ran.refl s, by simp [timeoutStatus, writesTimeOut], rfl, by simp⟩
  | cons b bs ih =>
    intro s hw
    obtain ⟨h1, b1, l1, s1, i1⟩ := writeByte_spec false b s hw
    have e : runItems ((b :: bs).flatMap (writeByte s.cfg false)) s =
        runItems (bs.flatMap (writeByte s.cfg false)) (runItems (writeByte s.cfg false b) s) := by
      rw [List.flatMap_cons, runItems_append]
    set u := runItems (writeByte s.cfg false b) s
    have g := ih u (by rw [h1.cfg]; exact hw)
    simp only [h1.cfg] at g
    obtain ⟨h2, s2, i2, l2⟩ := g
    obtain ⟨w1, w2, w3, w4⟩ := h1.writes bs 0
    simp only [e]
    refine ⟨?_, ?_, i2.trans i1, ?_⟩
    · have := h1.trans h2
      rw [w1, w2] at this
      simpa [writesTokens, writesCount] using this
    · rw [s2, s1, w3]
      simp only [writesTimeOut, Nat.add_zero, Nat.zero_add]
      cases timesOut s 0 <;> cases writesTimeOut s (pollCount s 0) bs <;> simp [timeoutStatus, BitVec.or_assoc]
    · intro c hc
      cases bs with
      | nil =>
        simp only [List.getLast?_singleton, Option.some.injEq] at hc
        subst hc
        exact ⟨by simpa using b1, by simpa [lastPollAt] using l1⟩
      | cons d ds =>
        obtain ⟨k1, k2⟩ := l2 c (by simpa using hc)
        refine ⟨k1, ⟨?_, ?_⟩⟩
        · rw [k2.flag, h1.timesOut]
          simp only [lastPollAt, Nat.zero_add]
          rw [← w4, Nat.add_zero]
        · rw [k2.cnt, h1.pollCount, h1.cfg]
          simp only [lastPollAt, Nat.zero_add]
          rw [← w4, Nat.add_zero]

/-- Steps 1 to 10 of INIT (R104). -/
theorem modeSelect_spec (s : State) (hw : s.cfg.wf = true) :
    let t := runItems (modeSelect s.cfg) s
    Ran s t (modeSelectTokens s.cfg) 0 ∧ t.status = s.status ∧ t.initialized = s.initialized ∧ t.flag = s.flag ∧
    t.cnt = s.cnt := by
  intro t
  have tr (n : Nibble) (u : State) (h : u.cfg = s.cfg) := transfer_spec false n u (by rw [h]; exact hw)
  let u0 := perform (.delayMs Config.tBootMs) (perform (.setDir .output) s)
  have r0 : Ran s u0 [.dir .output, .ms 40] 0 := by
    exact (perform_ran (.setDir .output) s).trans (perform_ran (.delayMs Config.tBootMs) _)
  have e0 : u0.status = s.status ∧ u0.initialized = s.initialized ∧ u0.flag = s.flag ∧ u0.cnt = s.cnt := by simp [u0]
  have link (u : State) (l : List Token) (n : Nibble) (d : Nat) (r : Ran s u l 0)
      (e : u.status = s.status ∧ u.initialized = s.initialized ∧ u.flag = s.flag ∧ u.cnt = s.cnt) :
      let v := perform (.delayMs d) (runItems (transfer false n) u)
      Ran s v (l ++ transferTokens false n ++ [.ms d]) 0 ∧
      (v.status = s.status ∧ v.initialized = s.initialized ∧ v.flag = s.flag ∧ v.cnt = s.cnt) := by
    obtain ⟨h, -, -, -, -, -, c6, c7, c8, c9⟩ := tr n u r.cfg
    refine ⟨by simpa [busToken] using (r.trans h).trans (perform_ran (.delayMs d) _), ?_⟩
    simp [c6, c7, c8, c9, e]
  obtain ⟨r1, e1⟩ := link u0 _ s.cfg.nib8bit Config.tInit1Ms r0 e0
  obtain ⟨r2, e2⟩ := link _ _ s.cfg.nib8bit Config.tInit2Ms r1 e1
  obtain ⟨r3, e3⟩ := link _ _ s.cfg.nib8bit s.cfg.tInit3Ms r2 e2
  obtain ⟨r4, e4⟩ := link _ _ s.cfg.nib4bit s.cfg.tInit4Ms r3 e3
  have et : t = perform (.delayMs s.cfg.tInit4Ms) (runItems (transfer false s.cfg.nib4bit)
      (perform (.delayMs s.cfg.tInit3Ms) (runItems (transfer false s.cfg.nib8bit)
      (perform (.delayMs Config.tInit2Ms) (runItems (transfer false s.cfg.nib8bit)
      (perform (.delayMs Config.tInit1Ms) (runItems (transfer false s.cfg.nib8bit) u0))))))) := by
    show runItems (modeSelect s.cfg) s = _
    simp only [modeSelect, runItems_append]
    rfl
  rw [et]
  exact ⟨by simpa [modeSelectTokens, Config.tInit1Ms, Config.tInit2Ms] using r4, e4⟩

/-- The writes of two lists of bytes, one after the other. -/
theorem writes_append (s : State) (cs : List Byte) (bs : List Byte) : ∀ j,
    writesTokens s j (bs ++ cs) = writesTokens s j bs ++ writesTokens s (j + writesCount s j bs) cs ∧
    writesCount s j (bs ++ cs) = writesCount s j bs + writesCount s (j + writesCount s j bs) cs ∧
    writesTimeOut s j (bs ++ cs) = (writesTimeOut s j bs || writesTimeOut s (j + writesCount s j bs) cs) := by
  induction bs with
  | nil => intro j; simp [writesTokens, writesCount, writesTimeOut]
  | cons b bs ih =>
    intro j
    obtain ⟨h1, h2, h3⟩ := ih (j + pollCount s j)
    simp only [List.cons_append, writesTokens, writesCount, writesTimeOut]
    rw [h1, h2, h3]
    simp [Nat.add_assoc, Bool.or_assoc]

theorem lastPollAt_append (s : State) (c : Byte) (bs : List Byte) : ∀ j,
    lastPollAt s j (bs ++ [c]) = j + writesCount s j bs := by
  induction bs with
  | nil => intro j; simp [lastPollAt, writesCount]
  | cons b bs ih =>
    intro j
    have h := ih (j + pollCount s j)
    cases bs with
    | nil => simp [lastPollAt, writesCount]
    | cons d ds =>
      simp only [List.cons_append, lastPollAt, writesCount] at h ⊢
      rw [h, Nat.add_assoc]

/-- Steps 1 to 17 of INIT (R104). -/
theorem initSequence_spec (s : State) (hw : s.cfg.wf = true) :
    let t := runItems (initSequence s.cfg) s
    Ran s t (modeSelectTokens s.cfg ++ writesTokens s 0 (commandBytes s.cfg)) (writesCount s 0 (commandBytes s.cfg)) ∧
    BusRestored t false (lowNibble s.cfg.cmdHome) ∧ PollLeft s t (lastPollAt s 0 (commandBytes s.cfg)) ∧
    t.status = s.status ||| timeoutStatus (writesTimeOut s 0 (commandBytes s.cfg)) ∧ t.initialized = s.initialized := by
  intro t
  obtain ⟨m1, m2, m3, -, -⟩ := modeSelect_spec s hw
  have et : t = runItems ((initBytes s.cfg).flatMap (writeByte s.cfg false)) (runItems (modeSelect s.cfg) s) :=
    runItems_append _ _ _
  set u := runItems (modeSelect s.cfg) s
  have hwr := writes_spec (initBytes s.cfg) u (by rw [m1.cfg]; exact hw)
  simp only [m1.cfg] at hwr
  obtain ⟨w1, w2, w3, w4⟩ := hwr
  obtain ⟨hb, hl⟩ := w4 s.cfg.cmdHome rfl
  obtain ⟨q1, q2, q3, q4⟩ := m1.writes (initBytes s.cfg) 0
  have h := m1.trans w1
  simp only [Nat.zero_add] at q1 q2 q3 q4 h
  rw [q1, q2] at h
  rw [et]
  refine ⟨h, hb, ⟨?_, ?_⟩, ?_, w3.trans m3⟩
  · rw [hl.flag, m1.timesOut, Nat.zero_add, ← q4]; rfl
  · rw [hl.cnt, m1.pollCount, m1.cfg, Nat.zero_add, ← q4]; rfl
  · rw [w2, m2, q3]; rfl

end Sys2Proof.Machine
end

