-- ==== Sys2Proof/Laws/Counts.lean ====
section
/-! SUPPORT. How many bus steps, samples and microseconds the traces of the claims hold (R94, R98, R178, R180). -/

namespace Sys2Proof.Machine

open Sys2Proof.Safety

/-- The number of passes: at least one, every sample before the last busy, the last one busy exactly on a timeout (R93, R94). -/
theorem passes_cases (n : Nat) : ∀ busy : Nat → Bool,
    let k := passes busy (n + 1)
    1 ≤ k ∧ k ≤ n + 1 ∧ (∀ i, i + 1 < k → busy i = true) ∧
    (((List.range (n + 1)).all busy) = true → k = n + 1 ∧ busy (k - 1) = true) ∧
    (((List.range (n + 1)).all busy) = false → busy (k - 1) = false) := by
  induction n with
  | zero =>
    intro busy
    have : passes busy 1 = 1 := by simp [passes]
    simp [this]
  | succ n ih =>
    intro busy
    cases hb : busy 0 with
    | false =>
      have : passes busy (n + 1 + 1) = 1 := by rw [passes]; simp [hb]
      simp only [this]
      refine ⟨by omega, by omega, by omega, ?_, by simp [hb]⟩
      rw [List.range_succ_eq_map]; simp [hb]
    | true =>
      have hk : passes busy (n + 1 + 1) = passes (fun i => busy (i + 1)) (n + 1) + 1 := by rw [passes]; simp [hb]
      obtain ⟨h1, h2, h3, h4, h5⟩ := ih (fun i => busy (i + 1))
      simp only [hk]
      generalize hk' : passes (fun i => busy (i + 1)) (n + 1) = k at *
      obtain ⟨m, rfl⟩ : ∃ m, k = m + 1 := ⟨k - 1, by omega⟩
      have hall : (List.range (n + 1 + 1)).all busy = (List.range (n + 1)).all (fun i => busy (i + 1)) := by
        rw [List.range_succ_eq_map]; simp [hb, Function.comp_def]
      refine ⟨by omega, by omega, ?_, ?_, ?_⟩
      · intro i hi
        cases i with
        | zero => exact hb
        | succ i => exact h3 i (by omega)
      · rw [hall]; intro h; have := h4 h; simp at this ⊢; omega
      · rw [hall]; intro h; simpa using h5 h

/-- The sample's busy bit is bit 3 of its nibble (R76). -/
theorem nibbleAt_busy (s : State) (i : Nat) : (nibbleAt s i).getLsbD 3 = busyAt s i := busyOf_portReadNibble (s.answer i)

theorem delayTotal_append (l m : List Token) : delayTotal (l ++ m) = delayTotal l + delayTotal m := by simp [delayTotal]

/-- One pass: 8 bus steps and one more after a busy sample (R94). -/
theorem passTokens_counts (c : Params) (h : Nibble) :
    (passTokens c h).length = 8 + (if h.getLsbD 3 then 1 else 0) ∧ (passTokens c h).countP isSample = 1 ∧
    (passTokens c h).countP isBusySample = (if h.getLsbD 3 then 1 else 0) ∧
    delayTotal (passTokens c h) =
      (2 * c.tPollSetupUs + c.tPollGapUs) + (if h.getLsbD 3 then 1 else 0) * c.tPollRetryUs := by
  unfold passTokens
  cases hb : h.getLsbD 3 <;> refine ⟨?_, ?_, ?_, ?_⟩ <;>
    (simp [List.countP_cons, isSample, isBusySample, hb, delayTotal, Token.asksUs]; try first | omega | simpa using hb)

/-- `k` passes. -/
theorem passesTokens_counts (s : State) (j k : Nat) :
    let l := (List.range k).flatMap (fun i => passTokens s.cfg (nibbleAt s (j + i)))
    let m := (List.range k).countP (fun i => busyAt s (j + i))
    l.length = 8 * k + m ∧ l.countP isSample = k ∧ l.countP isBusySample = m ∧
    delayTotal l = k * (2 * s.cfg.tPollSetupUs + s.cfg.tPollGapUs) + m * s.cfg.tPollRetryUs := by
  intro l m
  induction k with
  | zero => simp [l, m, delayTotal]
  | succ k ih =>
    obtain ⟨h1, h2, h3, h4⟩ := ih
    obtain ⟨p1, p2, p3, p4⟩ := passTokens_counts s.cfg (nibbleAt s (j + k))
    rw [nibbleAt_busy] at p1 p3 p4
    have e : l = (List.range k).flatMap (fun i => passTokens s.cfg (nibbleAt s (j + i))) ++
        passTokens s.cfg (nibbleAt s (j + k)) := by simp [l, List.range_succ]
    have em : m = (List.range k).countP (fun i => busyAt s (j + i)) + (if busyAt s (j + k) then 1 else 0) := by
      simp [m, List.range_succ, List.countP_append, List.countP_singleton]
    rw [e, em]
    simp only [List.length_append, List.countP_append, delayTotal_append]
    rw [h1, h2, h3, h4, p1, p2, p3, p4]
    exact ⟨by omega, rfl, rfl, by ring⟩

/-- The trace of a poll (R98). -/
theorem pollTokens_counts (s : State) (j : Nat) :
    let m := (List.range (pollCount s j)).countP (fun i => busyAt s (j + i))
    (pollTokens s j).length = 4 + 8 * pollCount s j + m + 2 ∧ (pollTokens s j).countP isSample = pollCount s j ∧
    (pollTokens s j).countP isBusySample = m ∧
    delayTotal (pollTokens s j) =
      pollCount s j * (2 * s.cfg.tPollSetupUs + s.cfg.tPollGapUs) + m * s.cfg.tPollRetryUs := by
  intro m
  obtain ⟨h1, h2, h3, h4⟩ := passesTokens_counts s j (pollCount s j)
  unfold pollTokens
  simp only [List.length_append, List.countP_append, delayTotal_append, h1, h2, h3, h4]
  simp [isSample, isBusySample, delayTotal, Token.asksUs, m]
  omega

/-- How many of a poll's samples are busy: all but the last one, or all on a timeout (R98). -/
theorem pollCount_cases (s : State) (j : Nat) (hw : s.cfg.wf = true) :
    (List.range (pollCount s j)).countP (fun i => busyAt s (j + i)) + (if timesOut s j then 0 else 1) = pollCount s j ∧
    1 ≤ pollCount s j ∧ pollCount s j ≤ s.cfg.pollBudget ∧ (timesOut s j = true → pollCount s j = s.cfg.pollBudget) ∧
    (busyAt s j = false → pollCount s j = 1 ∧ timesOut s j = false) := by
  obtain ⟨hb, -⟩ := Params.wf_budget hw
  obtain ⟨n, hn⟩ : ∃ n, s.cfg.pollBudget = n + 1 := ⟨s.cfg.pollBudget - 1, by omega⟩
  obtain ⟨h1, h2, h3, h4, h5⟩ := passes_cases n (fun i => busyAt s (j + i))
  unfold pollCount timesOut
  rw [hn]
  generalize hk : passes (fun i => busyAt s (j + i)) (n + 1) = k at *
  obtain ⟨m, rfl⟩ : ∃ m, k = m + 1 := ⟨k - 1, by omega⟩
  refine ⟨?_, h1, h2, fun h => (h4 h).1, ?_⟩
  · have hm : (List.range m).countP (fun i => busyAt s (j + i)) = m := by
      have : (List.range m).countP (fun i => busyAt s (j + i)) = (List.range m).length := by
        rw [List.countP_eq_length]; intro i hi; exact h3 i (by simp at hi; omega)
      simpa using this
    rw [List.range_succ, List.countP_append, hm]
    cases hall : (List.range (n + 1)).all fun i => busyAt s (j + i) with
    | true => have := (h4 hall).2; simp at this; simp [this]
    | false => have := h5 hall; simp at this; simp [this]
  · intro h0
    have hk1 : passes (fun i => busyAt s (j + i)) (n + 1) = 1 := by rw [passes]; simp [h0]
    refine ⟨by omega, ?_⟩
    rw [List.range_succ_eq_map]; simp [h0]

theorem transferTokens_counts (rs : Bool) (n : Nibble) :
    (transferTokens rs n).length = 7 ∧ delayTotal (transferTokens rs n) = 3 := by
  simp [transferTokens, delayTotal, Token.asksUs]

end Sys2Proof.Machine
end

