-- ==== Sys2Proof/Laws/Machine.lean ====
section
/-! SUPPORT. What holds of any items and any operation: `runItem_ran` (the common frame), `runItems_rel` (a relation between two
states that every action keeps is kept by a run: the one induction for the claims about what cannot matter), `exec_idle`
(an operation accepted in an idle state) and `completed_of_ran`. -/

namespace Sys2Proof.Machine

open Sys2Proof.Safety

/-! ### The common frame of any items -/

theorem performs_ran (l : List BusStep) : ∀ s, ∃ toks n, Ran s (performs l s) toks n := by
  induction l with
  | nil => exact fun s => ⟨[], 0, Ran.refl s⟩
  | cons x l ih =>
    intro s
    obtain ⟨toks, n, h⟩ := ih (perform x s)
    exact ⟨_, _, (perform_ran x s).trans h⟩

theorem retryDelay_ran (s : State) : ∃ toks n, Ran s (retryDelay s) toks n := by
  unfold retryDelay
  split
  · exact ⟨_, _, perform_ran _ s⟩
  · exact ⟨[], 0, Ran.refl s⟩

theorem pollIteration_ran (s : State) : ∃ toks n, Ran s (pollIteration s) toks n := by
  obtain ⟨l, i, h⟩ := performs_ran (pollPulses s.cfg) s
  obtain ⟨m, j, g⟩ := retryDelay_ran (performs (pollPulses s.cfg) s)
  exact ⟨_, _, (h.trans g).of_eq rfl⟩

theorem pollPasses_ran (fuel : Nat) : ∀ s, ∃ toks n, Ran s (pollPasses fuel s) toks n := by
  induction fuel with
  | zero => exact fun s => ⟨[], 0, Ran.refl s⟩
  | succ fuel ih =>
    intro s
    obtain ⟨l, i, h⟩ := pollIteration_ran s
    rw [pollPasses]
    split
    · exact ⟨l, i, h⟩
    · obtain ⟨m, j, g⟩ := ih (pollIteration s)
      exact ⟨_, _, h.trans g⟩

theorem finishLoop_ran (s : State) : ∃ toks n, Ran s (finishLoop s) toks n := by
  have h : Ran s (decrementCnt s) [] 0 := (Ran.refl s).of_eq rfl
  unfold finishLoop
  split
  · exact ⟨[], 0, h⟩
  · obtain ⟨m, j, g⟩ := pollPasses_ran (decrementCnt s).cnt (decrementCnt s)
    exact ⟨_, _, h.trans g⟩

/-- Whatever an item does, it keeps the common frame. -/
theorem runItem_ran (it : Item) (s : State) : ∃ toks n, Ran s (runItem it s) toks n := by
  have silent (u : State)
      (e : u = { s with cnt := u.cnt, status := u.status, initialized := u.initialized, flag := u.flag }) :
      ∃ toks n, Ran s u toks n := ⟨[], 0, (Ran.refl s).of_eq e⟩
  cases it with
  | bus x => exact ⟨_, _, perform_ran x s⟩
  | loadCnt => exact silent _ rfl
  | retryIfBusy => exact retryDelay_ran s
  | nextIteration => exact finishLoop_ran s
  | outcome =>
    refine silent (recordPollOutcome s) ?_
    unfold recordPollOutcome
    split <;> rfl
  | setInitialized => exact silent _ rfl
  | badRow => exact silent (recordOutcome .badRow s) rfl
  | illegal => exact silent (recordOutcome .illegal s) rfl

theorem runItems_ran (l : List Item) : ∀ s, ∃ toks n, Ran s (runItems l s) toks n := by
  induction l with
  | nil => exact fun s => ⟨[], 0, Ran.refl s⟩
  | cons it l ih =>
    intro s
    obtain ⟨m, j, h⟩ := runItem_ran it s
    obtain ⟨m', j', g⟩ := ih (runItem it s)
    exact ⟨_, _, h.trans g⟩

/-! ### Two runs side by side -/

/-- A relation between two states that no action of the CORE can break. -/
structure Kept (R : State → State → Prop) : Prop where
  cfg : ∀ {s u}, R s u → u.cfg = s.cfg
  flag : ∀ {s u}, R s u → u.flag = s.flag
  cnt : ∀ {s u}, R s u → u.cnt = s.cnt
  bus : ∀ {s u} (x : BusStep), R s u → R (perform x s) (perform x u)
  setCnt : ∀ {s u} (n : Nat), R s u → R { s with cnt := n } { u with cnt := n }
  record : ∀ {s u} (c : Cause), R s u → R (recordOutcome c s) (recordOutcome c u)
  setInitialized : ∀ {s u}, R s u → R { s with initialized := true } { u with initialized := true }

theorem Kept.performs {R : State → State → Prop} (k : Kept R) (l : List BusStep) :
    ∀ {s u}, R s u → R (performs l s) (performs l u) := by
  induction l with
  | nil => exact fun h => h
  | cons x l ih => exact fun h => ih (k.bus x h)

theorem Kept.retryDelay {R : State → State → Prop} (k : Kept R) {s u : State} (h : R s u) :
    R (retryDelay s) (retryDelay u) := by
  unfold Machine.retryDelay
  rw [k.flag h, k.cfg h]
  split
  · exact k.bus _ h
  · exact h

theorem Kept.decrementCnt {R : State → State → Prop} (k : Kept R) {s u : State} (h : R s u) :
    R (decrementCnt s) (decrementCnt u) := by
  unfold Machine.decrementCnt
  rw [k.cnt h]
  exact k.setCnt _ h

theorem Kept.leavesLoop {R : State → State → Prop} (k : Kept R) {s u : State} (h : R s u) :
    leavesLoop u = leavesLoop s := by simp [Machine.leavesLoop, k.flag h, k.cnt h]

theorem Kept.pollIteration {R : State → State → Prop} (k : Kept R) {s u : State} (h : R s u) :
    R (pollIteration s) (pollIteration u) := by
  unfold Machine.pollIteration
  rw [k.cfg h]
  exact k.decrementCnt (k.retryDelay (k.performs _ h))

theorem Kept.pollPasses {R : State → State → Prop} (k : Kept R) (fuel : Nat) :
    ∀ {s u}, R s u → R (pollPasses fuel s) (pollPasses fuel u) := by
  induction fuel with
  | zero => exact fun h => h
  | succ fuel ih =>
    intro s u h
    have h' := k.pollIteration h
    rw [Machine.pollPasses, Machine.pollPasses, k.leavesLoop h']
    split
    · exact h'
    · exact ih h'

theorem Kept.runItem {R : State → State → Prop} (k : Kept R) (it : Item) {s u : State} (h : R s u) :
    R (runItem it s) (runItem it u) := by
  cases it with
  | bus x => exact k.bus x h
  | loadCnt =>
    have e : u.cfg.pollBudget = s.cfg.pollBudget := congrArg _ (k.cfg h)
    simp only [Machine.runItem]
    rw [e]
    exact k.setCnt _ h
  | retryIfBusy => exact k.retryDelay h
  | nextIteration =>
    have h' := k.decrementCnt h
    simp only [Machine.runItem, finishLoop]
    rw [k.leavesLoop h', k.cnt h']
    split
    · exact h'
    · exact k.pollPasses _ h'
  | outcome =>
    simp only [Machine.runItem, recordPollOutcome]
    rw [k.flag h]
    split
    · exact k.record _ h
    · exact h
  | setInitialized => exact k.setInitialized h
  | badRow => exact k.record _ h
  | illegal => exact k.record _ h

/-- A relation that every action keeps is kept by a run of any items. -/
theorem Kept.runItems {R : State → State → Prop} (k : Kept R) (l : List Item) :
    ∀ {s u}, R s u → R (runItems l s) (runItems l u) := by
  induction l with
  | nil => exact fun h => h
  | cons it l ih => exact fun h => ih (k.runItem it h)

/-- What an item does to the state does not depend on the sequencer's position. -/
theorem kept_seq (q : Seq) : Kept fun s u => u = { s with seq := q } where
  cfg h := by rw [h]
  flag h := by rw [h]
  cnt h := by rw [h]
  bus x h := by
    subst h
    cases x <;> simp [perform, busEffect, busToken, Machine.record, envMove, State.answer] <;> split <;> simp
  setCnt n h := by rw [h]
  record c h := by rw [h]; rfl
  setInitialized h := by rw [h]

theorem runItems_seq (l : List Item) (s : State) (q : Seq) :
    runItems l { s with seq := q } = { runItems l s with seq := q } := (kept_seq q).runItems l rfl

theorem runItem_seq (it : Item) (s : State) (q : Seq) :
    runItem it { s with seq := q } = { runItem it s with seq := q } := (kept_seq q).runItem it rfl

/-! ### An operation -/

/-- Every meaning is its rule, operated. -/
theorem exec_eq (i : Instr) (s : State) : exec i s = operate (ruleOf i) s := by cases i <;> rfl

theorem finish_idle {s : State} (h : s.seq = .idle) : finish s = s := by simp [finish, h]

/-- An operation always ends idle. -/
theorem finish_seq (s : State) : (finish s).seq = .idle := by
  unfold finish
  split
  · assumption
  · rfl

theorem finish_cfg (s : State) : (finish s).cfg = s.cfg := by
  unfold finish
  split
  · rfl
  · rename_i rest _ _
    obtain ⟨_, _, h⟩ := runItems_ran rest s
    exact h.cfg

/-- An instruction executed in an idle state: acceptance, its items, completion (R52, R53). -/
theorem exec_idle (i : Instr) (s : State) (hw : s.cfg.wf = true) (hi : s.seq = .idle) :
    exec i s = .next (complete (ruleOf i s).fin (runItems (ruleOf i s).items (accept (ruleOf i s) s))) := by
  rw [exec_eq, operate, if_pos hw, finish_idle hi]
  rfl

/-! ### Acceptance changes no answer, so the terms of the claims are the same before and after it -/

@[simp] theorem accept_answer (r : Rule) (s : State) (i : Nat) : (accept r s).answer i = s.answer i := rfl

@[simp] theorem accept_dataOut (r : Rule) (s : State) : (accept r s).dataOut = s.dataOut := rfl

@[simp] theorem accept_busyAt (r : Rule) (s : State) (i : Nat) : busyAt (accept r s) i = busyAt s i := rfl

@[simp] theorem accept_nibbleAt (r : Rule) (s : State) (i : Nat) : nibbleAt (accept r s) i = nibbleAt s i := rfl

@[simp] theorem accept_pollCount (r : Rule) (s : State) (j : Nat) : pollCount (accept r s) j = pollCount s j := rfl

@[simp] theorem accept_timesOut (r : Rule) (s : State) (j : Nat) : timesOut (accept r s) j = timesOut s j := rfl

@[simp] theorem accept_pollTokens (r : Rule) (s : State) (j : Nat) : pollTokens (accept r s) j = pollTokens s j := by
  simp [pollTokens]

@[simp] theorem accept_writeTokens (r : Rule) (s : State) (j : Nat) (rs : Bool) (b : Byte) :
    writeTokens (accept r s) j rs b = writeTokens s j rs b := by simp [writeTokens]

@[simp] theorem accept_writesTokens (r : Rule) (s : State) (bs : List Byte) : ∀ j,
    writesTokens (accept r s) j bs = writesTokens s j bs := by
  induction bs <;> simp [writesTokens, *]

@[simp] theorem accept_writesCount (r : Rule) (s : State) (bs : List Byte) : ∀ j,
    writesCount (accept r s) j bs = writesCount s j bs := by
  induction bs <;> simp [writesCount, *]

@[simp] theorem accept_writesTimeOut (r : Rule) (s : State) (bs : List Byte) : ∀ j,
    writesTimeOut (accept r s) j bs = writesTimeOut s j bs := by
  induction bs <;> simp [writesTimeOut, *]

@[simp] theorem accept_lastPollAt (r : Rule) (s : State) (bs : List Byte) : ∀ j,
    lastPollAt (accept r s) j bs = lastPollAt s j bs := by
  induction bs with
  | nil => simp [lastPollAt]
  | cons b bs ih => cases bs <;> simp_all [lastPollAt]

/-- Completion touches neither the pins nor what the poll left. -/
theorem complete_busRestored {t : State} {rs : Bool} {data : Nibble} (f : AtCompletion) (h : BusRestored t rs data) :
    BusRestored (complete f t) rs data := ⟨h.rs, h.rw, h.e, h.dir, h.data⟩

theorem complete_pollLeft {r : Rule} {s t : State} {j : Nat} (f : AtCompletion) (h : PollLeft (accept r s) t j) :
    PollLeft s (complete f t) j := by
  obtain ⟨h1, h2⟩ := h
  simp only [accept_timesOut, accept_pollCount, accept_cfg] at h1 h2
  exact ⟨h1, h2⟩

/-- A completed operation in the terms of the claims. -/
theorem completed_of_ran {r : Rule} {s t : State} {toks : List Token} {n : Nat} (h : Ran (accept r s) t toks n) :
    Completed s (complete r.fin t) r.op r.a r.b toks n where
  cfg := h.cfg
  op := h.op
  a := h.a
  b := h.b
  seq := rfl
  rst := h.rst
  requests := h.requests
  trace := h.trace
  responses := congrArg (· ++ [t.status]) h.responses
  answered := rfl
  portIn := h.portIn
  draws := h.draws
  foreign := h.foreign
  foreignBits := h.foreignBits
  port := h.port

/-- An operation whose rule is one `Transfer` (R80): WRNIBC, WRNIBD. -/
theorem exec_transfer (i : Instr) (s : State) (rs : Bool) (n : Nibble) (hw : s.cfg.wf = true) (hi : s.seq = .idle)
    (hr : (ruleOf i s).items = transfer rs n) :
    ∃ t, exec i s = .next t ∧ Completed s t (ruleOf i s).op (ruleOf i s).a (ruleOf i s).b (transferTokens rs n) 0 ∧
      t.rs = rs ∧ t.rw = false ∧ t.e = false ∧ t.dir = s.dir ∧ t.dataOut = n ∧
      t.flag = s.flag ∧ t.cnt = s.cnt ∧ t.status = 0#3 ∧
      t.initialized = (s.initialized || (ruleOf i s).fin.setsInitialized) ∧
      t.enabled = (s.enabled || (ruleOf i s).fin.setsEnabled) := by
  obtain ⟨h, h1, h2, h3, h4, h5, h6, h7, h8, h9⟩ := transfer_spec rs n (accept (ruleOf i s) s) hw
  have e := exec_idle i s hw hi
  rw [hr] at e
  simp only [accept_dir, accept_flag, accept_cnt, accept_status, accept_initialized] at h4 h6 h7 h8 h9
  refine ⟨_, e, completed_of_ran h, h1, h2, h3, h4, h5, h6, h7, h8, ?_, ?_⟩
  · rw [complete_initialized, h9]
  · rw [complete_enabled, h.enabled, accept_enabled]

/-- An operation whose rule is one `WriteByte` (R101): WRCMD, WRDATA, ENABLE, a later START, SETPOS with a valid row. -/
theorem exec_writeByte (i : Instr) (s : State) (rs : Bool) (b : Byte) (hw : s.cfg.wf = true) (hi : s.seq = .idle)
    (hr : (ruleOf i s).items = writeByte s.cfg rs b) :
    ∃ t, exec i s = .next t ∧
      Completed s t (ruleOf i s).op (ruleOf i s).a (ruleOf i s).b (writeTokens s 0 rs b) (pollCount s 0) ∧
      BusRestored t rs (lowNibble b) ∧ PollLeft s t 0 ∧ t.status = timeoutStatus (timesOut s 0) ∧
      t.initialized = (s.initialized || (ruleOf i s).fin.setsInitialized) ∧
      t.enabled = (s.enabled || (ruleOf i s).fin.setsEnabled) := by
  obtain ⟨h, hb, hl, hs, hn⟩ := writeByte_spec rs b (accept (ruleOf i s) s) hw
  have e := exec_idle i s hw hi
  rw [hr] at e
  simp only [accept_cfg, accept_writeTokens, accept_pollCount, accept_timesOut, accept_status, BitVec.zero_or,
    accept_initialized] at h hb hl hs hn
  refine ⟨_, e, completed_of_ran h, complete_busRestored _ hb, complete_pollLeft _ hl, hs, ?_, ?_⟩
  · rw [complete_initialized, hn]
  · rw [complete_enabled, h.enabled, accept_enabled]

end Sys2Proof.Machine
end

