-- ==== Sys2Proof/Laws/Delays.lean ====
section
/-! SUPPORT. The delay steps of an operation are within their ranges (R77, R78): `ruleOf_delays` for every operation as it is accepted,
`sequenceItem_delays` for what every event leaves to come. -/

namespace Sys2Proof.Machine

open Sys2Proof.Safety

theorem transfer_delays (rs : Bool) (n : Nibble) : (transfer rs n).all delayInRange = true := by
  simp [transfer, transferSteps, delayInRange, Config.tSetupUs, Config.tPulseUs]

theorem pollBody_delays {c : Params} (h : c.wf = true) : (pollBody c).all delayInRange = true := by
  simp [Params.wf] at h
  simp [pollBody, pollPulses, delayInRange]
  omega

theorem pollItems_delays {c : Params} (h : c.wf = true) : (pollItems c).all delayInRange = true := by
  simp only [pollItems, List.all_append, pollBody_delays h]
  simp [delayInRange]

theorem writeByte_delays {c : Params} (h : c.wf = true) (rs : Bool) (b : Byte) :
    (writeByte c rs b).all delayInRange = true := by
  simp only [writeByte, List.all_append, pollItems_delays h, transfer_delays, Bool.and_self]

theorem initSequence_delays {c : Params} (h : c.wf = true) : (initSequence c).all delayInRange = true := by
  have hw := h
  simp [Params.wf] at hw
  simp only [initSequence, modeSelect, List.all_append, transfer_delays, List.all_flatMap, writeByte_delays h]
  simp [delayInRange, Config.tBootMs, Config.tInit1Ms, Config.tInit2Ms]
  omega

/-- Every operation's rule. -/
theorem ruleOf_delays (i : Instr) {s : State} (h : s.cfg.wf = true) : (ruleOf i s).items.all delayInRange = true := by
  cases i with
  | start a b =>
    simp only [ruleOf, ruleStart, List.all_append, writeByte_delays h, Bool.and_true]
    split <;> simp only [List.all_nil, List.all_append, initSequence_delays h, List.all_cons, delayInRange, Bool.and_self]
  | setpos a b =>
    simp only [ruleOf, ruleSetpos]
    split
    · exact writeByte_delays h _ _
    · rfl
  | init a b => exact initSequence_delays h
  | enable a b => exact writeByte_delays h _ _
  | wrcmd a b => exact writeByte_delays h _ _
  | wrdata a b => exact writeByte_delays h _ _
  | poll a b => exact pollItems_delays h
  | wrnibc a b => exact transfer_delays _ _
  | wrnibd a b => exact transfer_delays _ _
  | nop a b => rfl
  | reserved7 a b => rfl
  | reservedB a b => rfl
  | reservedC a b => rfl
  | reservedD a b => rfl
  | reservedE a b => rfl
  | reservedF a b => rfl

/-- One line of a rule leaves only delay steps within their ranges. -/
theorem sequenceItem_delays (it : Item) (op : Nibble) (k : Nat) (rest : List Item) (fin : AtCompletion) (s : State)
    (hw : s.cfg.wf = true) (h : rest.all delayInRange = true) :
    pendingDelaysInRange (sequenceItem it op k rest fin s).seq = true := by
  cases it with
  | nextIteration =>
    simp only [sequenceItem]
    split
    · exact h
    · simp only [pendingDelaysInRange, List.all_append, pollBody_delays hw, h, Bool.and_self]
  | bus x => exact h
  | retryIfBusy => exact h
  | loadCnt => exact h
  | outcome => exact h
  | setInitialized => exact h
  | badRow => exact h
  | illegal => exact h

end Sys2Proof.Machine
end

