-- ==== Sys2Proof/Laws/Events.lean ====
section
/-! SUPPORT. The bus-step machine of Machine/Sequencer.lean, one event at a time: `sequenceItem_shape` says everything an event of a
running operation does, `finish_tick` that no event changes what the operation will have done when it completes. -/

namespace Sys2Proof.Machine

open Sys2Proof.Safety

theorem finish_run {s : State} {op : Nibble} {k : Nat} {rest : List Item} {fin : AtCompletion}
    (h : s.seq = .run op k rest fin) : finish s = complete fin (runItems rest s) := by simp [finish, h]

theorem finish_withSeq (s : State) (op : Nibble) (k : Nat) (rest : List Item) (fin : AtCompletion) :
    finish { s with seq := .run op k rest fin } = complete fin (runItems rest s) := by
  rw [finish_run rfl, runItems_seq]; rfl

/-- The loop tests after its body, so going on is the body once more (R91 step 6k). -/
theorem finishLoop_again (s : State) (hw : s.cfg.wf = true) (h : leavesLoop (decrementCnt s) = false) :
    finishLoop s = runItems (pollBody s.cfg) (decrementCnt s) := by
  have h0 : (decrementCnt s).cnt ≠ 0 := by
    intro h1; simp [leavesLoop, h1] at h
  obtain ⟨n, hn⟩ : ∃ n, (decrementCnt s).cnt = n + 1 := ⟨(decrementCnt s).cnt - 1, by omega⟩
  have e := pollBody_eq (decrementCnt s) n hw hn
  rw [show (decrementCnt s).cfg = s.cfg from rfl] at e
  rw [e, finishLoop, h, hn]; rfl

/-- `Ran` with the sequencer's position left out. -/
theorem Ran.of_seq {s u : State} {l : List Token} {n : Nat} (h : Ran s u l n) (q : Seq) :
    Ran s { { u with seq := q } with seq := s.seq } l n := h.of_eq (by rw [← h.seq])

/-- One line of a rule: at most one bus step, counted in `k`, and the operation still runs (R14). -/
theorem sequenceItem_shape (it : Item) (op : Nibble) (k : Nat) (rest : List Item) (fin : AtCompletion) (s : State) :
    ∃ toks n k' rest', Ran s { sequenceItem it op k rest fin s with seq := s.seq } toks n ∧
      (sequenceItem it op k rest fin s).seq = .run op k' rest' fin ∧
      ((k' = k + 1 ∧ toks.length = 1) ∨ (k' = k ∧ toks = [])) := by
  cases it with
  | bus x => exact ⟨_, _, k + 1, rest, (perform_ran x s).of_seq _, rfl, .inl ⟨rfl, rfl⟩⟩
  | retryIfBusy =>
    by_cases h : s.flag
    · have e : sequenceItem .retryIfBusy op k rest fin s =
          { perform (.delayUs s.cfg.tPollRetryUs) s with seq := .run op (k + 1) rest fin } := by
        simp only [sequenceItem, retryDelay, if_pos h]
      rw [e]
      exact ⟨_, _, k + 1, rest, (perform_ran _ s).of_seq _, rfl, .inl ⟨rfl, rfl⟩⟩
    · have e : sequenceItem .retryIfBusy op k rest fin s = { s with seq := .run op k rest fin } := by
        simp only [sequenceItem, retryDelay, if_neg h]
      rw [e]
      exact ⟨[], 0, k, rest, (Ran.refl s).of_seq _, rfl, .inr ⟨rfl, rfl⟩⟩
  | nextIteration =>
    have hd : Ran s (decrementCnt s) [] 0 := (Ran.refl s).of_eq rfl
    by_cases h : leavesLoop (decrementCnt s)
    · have e : sequenceItem .nextIteration op k rest fin s = { decrementCnt s with seq := .run op k rest fin } := by
        simp only [sequenceItem, if_pos h]
      rw [e]
      exact ⟨[], 0, k, rest, hd.of_seq _, rfl, .inr ⟨rfl, rfl⟩⟩
    · have e : sequenceItem .nextIteration op k rest fin s =
          { decrementCnt s with seq := .run op k (pollBody s.cfg ++ rest) fin } := by
        simp only [sequenceItem, if_neg h]
      rw [e]
      exact ⟨[], 0, k, _, hd.of_seq _, rfl, .inr ⟨rfl, rfl⟩⟩
  | outcome =>
    have hd : Ran s (recordPollOutcome s) [] 0 := (Ran.refl s).of_eq (by unfold recordPollOutcome; split <;> rfl)
    exact ⟨[], 0, k, rest, hd.of_seq _, rfl, .inr ⟨rfl, rfl⟩⟩
  | loadCnt => exact ⟨[], 0, k, rest, (Ran.refl s).of_eq rfl, rfl, .inr ⟨rfl, rfl⟩⟩
  | setInitialized => exact ⟨[], 0, k, rest, (Ran.refl s).of_eq rfl, rfl, .inr ⟨rfl, rfl⟩⟩
  | badRow => exact ⟨[], 0, k, rest, (Ran.refl s).of_eq rfl, rfl, .inr ⟨rfl, rfl⟩⟩
  | illegal => exact ⟨[], 0, k, rest, (Ran.refl s).of_eq rfl, rfl, .inr ⟨rfl, rfl⟩⟩

/-- One line now and the rest later is the whole now. -/
theorem finish_sequenceItem (it : Item) (op : Nibble) (k : Nat) (rest : List Item) (fin : AtCompletion) (s : State)
    (hw : s.cfg.wf = true) :
    finish (sequenceItem it op k rest fin s) = complete fin (runItems (it :: rest) s) := by
  rw [runItems_cons]
  cases it with
  | nextIteration =>
    by_cases h : leavesLoop (decrementCnt s)
    · have e : sequenceItem .nextIteration op k rest fin s = { decrementCnt s with seq := .run op k rest fin } := by
        simp only [sequenceItem, if_pos h]
      have e2 : runItem .nextIteration s = decrementCnt s := by simp only [runItem, finishLoop, if_pos h]
      rw [e, e2, finish_withSeq]
    · have e : sequenceItem .nextIteration op k rest fin s =
          { decrementCnt s with seq := .run op k (pollBody s.cfg ++ rest) fin } := by
        simp only [sequenceItem, if_neg h]
      have e2 : runItem .nextIteration s = runItems (pollBody s.cfg) (decrementCnt s) :=
        finishLoop_again s hw (by simpa using h)
      rw [e, e2, finish_withSeq, runItems_append]
  | bus x => exact finish_withSeq (perform x s) op (k + 1) rest fin
  | retryIfBusy => exact finish_withSeq (retryDelay s) op (if s.flag then k + 1 else k) rest fin
  | loadCnt => exact finish_withSeq (runItem .loadCnt s) op k rest fin
  | outcome => exact finish_withSeq (runItem .outcome s) op k rest fin
  | setInitialized => exact finish_withSeq (runItem .setInitialized s) op k rest fin
  | badRow => exact finish_withSeq (runItem .badRow s) op k rest fin
  | illegal => exact finish_withSeq (runItem .illegal s) op k rest fin

/-- No event changes what the running operation will have done at its completion. -/
theorem finish_tick {s t : State} (hr : s.rst = false) (hs : s.seq ≠ .idle) (h : tick s = .next t) : finish t = finish s := by
  have hw : s.cfg.wf = true := by
    by_contra hw; simp [tick, hw] at h
  cases hq : s.seq with
  | idle => exact absurd hq hs
  | run op k rest fin =>
    cases rest with
    | nil => simp [tick, hw, hr, hq] at h; subst h; rw [finish_idle rfl, finish_run hq]; rfl
    | cons it rest => simp [tick, hw, hr, hq] at h; subst h; rw [finish_sequenceItem _ _ _ _ _ _ hw, finish_run hq]

/-- The acceptance event (R52). -/
theorem tick_accept {s : State} {w : Request} {ws : List Request} (hw : s.cfg.wf = true) (hr : s.rst = false)
    (hq : s.seq = .idle) (hl : s.requests = w :: ws) :
    tick s = .next (accept (ruleOf (decode w) s) { s with requests := ws }) := by
  unfold tick; rw [if_pos hw, hr, hq, hl]; rfl

end Sys2Proof.Machine
end

