-- ==== Sys2Proof/Laws/PerInstr.lean ====
section
/-! SUPPORT. Statements about every instruction as syntax, one lemma per constructor: where its fields stand in its word (R51). -/

namespace Sys2Proof.Laws

/-- The three fields of a word put together from them (R51). -/
theorem request_fields (op : Nibble) (a b : Byte) :
    (op ++ (a ++ b) : Request).extractLsb' 16 4 = op ∧ (op ++ (a ++ b) : Request).extractLsb' 8 8 = a ∧
    (op ++ (a ++ b) : Request).extractLsb' 0 8 = b := by
  refine ⟨?_, ?_, ?_⟩ <;> ext i hi <;> simp [BitVec.getElem_extractLsb'] <;> grind

namespace OpcodeField

/-- The word of an instruction holds its operation code in bits 19:16, `a` in 15:8 and `b` in 7:0 (R51, R54). -/
def Statement (i : Instr) : Prop :=
  (encode i).extractLsb' 16 4 = i.opcode ∧ (encode i).extractLsb' 8 8 = i.fieldA ∧ (encode i).extractLsb' 0 8 = i.fieldB

theorem nop (a b : Byte) : Statement (.nop a b) := request_fields _ a b
theorem init (a b : Byte) : Statement (.init a b) := request_fields _ a b
theorem start (a b : Byte) : Statement (.start a b) := request_fields _ a b
theorem enable (a b : Byte) : Statement (.enable a b) := request_fields _ a b
theorem wrcmd (a b : Byte) : Statement (.wrcmd a b) := request_fields _ a b
theorem wrdata (a b : Byte) : Statement (.wrdata a b) := request_fields _ a b
theorem setpos (a b : Byte) : Statement (.setpos a b) := request_fields _ a b
theorem reserved7 (a b : Byte) : Statement (.reserved7 a b) := request_fields _ a b
theorem poll (a b : Byte) : Statement (.poll a b) := request_fields _ a b
theorem wrnibc (a b : Byte) : Statement (.wrnibc a b) := request_fields _ a b
theorem wrnibd (a b : Byte) : Statement (.wrnibd a b) := request_fields _ a b
theorem reservedB (a b : Byte) : Statement (.reservedB a b) := request_fields _ a b
theorem reservedC (a b : Byte) : Statement (.reservedC a b) := request_fields _ a b
theorem reservedD (a b : Byte) : Statement (.reservedD a b) := request_fields _ a b
theorem reservedE (a b : Byte) : Statement (.reservedE a b) := request_fields _ a b
theorem reservedF (a b : Byte) : Statement (.reservedF a b) := request_fields _ a b

end OpcodeField

end Sys2Proof.Laws
end

