-- ==== Sys2Proof/Tests/Slice0.lean ====
section
/-! SUPPORT. Tests. Expected results come from spec/95_test_vectors.md (V<n>), from the worked examples of the rules, or by hand
from the encodings of R51 and R54. The witnesses at the end meet the hypotheses of the statements. -/

namespace Sys2Proof.Tests

open Sys2Proof.Machine Sys2Proof.Safety

/-! ### Configurations, words and strings outside the parameter space (R7, R51, R135) -/

theorem test_default_configuration_is_accepted : Params.default.wf = true := by decide
theorem test_port_narrower_than_a_nibble_is_refused : ({ Params.default with portW := 3 }).wf = false := by decide
theorem test_data_field_beyond_the_port_is_refused :
    ({ Params.default with dataShift := 13 }).wf = false ∧ ({ Params.default with dataShift := 12 }).wf = true := by decide
theorem test_counter_of_no_bits_is_refused : ({ Params.default with cntW := 0, pollBudget := 1 }).wf = false := by decide
theorem test_zero_budget_is_refused : ({ Params.default with pollBudget := 0 }).wf = false := by decide
theorem test_budget_beyond_the_counter_is_refused :
    ({ Params.default with cntW := 2, pollBudget := 4 }).wf = false ∧
    ({ Params.default with cntW := 2, pollBudget := 3 }).wf = true := by decide
theorem test_third_init_delay_range :
    ({ Params.default with tInit3Ms := 0 }).wf = false ∧ ({ Params.default with tInit3Ms := 41 }).wf = false := by decide
theorem test_fourth_init_delay_range :
    ({ Params.default with tInit4Ms := 0 }).wf = false ∧ ({ Params.default with tInit4Ms := 41 }).wf = false := by decide
theorem test_poll_setup_delay_range : ({ Params.default with tPollSetupUs := 11 }).wf = false := by decide
theorem test_poll_gap_delay_range : ({ Params.default with tPollGapUs := 11 }).wf = false := by decide
theorem test_poll_retry_delay_range : ({ Params.default with tPollRetryUs := 11 }).wf = false := by decide
theorem test_word_of_21_bits_is_refused :
    wordInRange 0x100000 = false ∧ decodeNat 0x100000 = .error .widerThanRequestWord ∧
    decodeTableWord 24 0x100000 = none := by decide
theorem test_string_without_zero_is_refused : terminated [0x48, 0x69] = false := by decide

/-! ### Decoding (R51, R54): words written out bit by bit, op | a | b -/

theorem test_decode_nop : decode 0b0000_00000000_00000000#20 = .nop 0 0 := by decide
theorem test_decode_init : decode 0b0001_00000000_00000000#20 = .init 0 0 := by decide
theorem test_decode_start : decode 0b0010_00000000_00000000#20 = .start 0 0 := by decide
theorem test_decode_enable : decode 0b0011_00000000_00000000#20 = .enable 0 0 := by decide
theorem test_decode_wrcmd : decode 0b0100_00000001_00000000#20 = .wrcmd 0x01 0 := by decide
theorem test_decode_wrdata : decode 0b0101_10000000_10101011#20 = .wrdata 0x80 0xAB := by decide
theorem test_decode_setpos : decode 0b0110_00000001_00000101#20 = .setpos 1 5 := by decide
theorem test_decode_reserved7 : decode 0b0111_00000000_00000000#20 = .reserved7 0 0 := by decide
theorem test_decode_poll : decode 0b1000_00000000_00000000#20 = .poll 0 0 := by decide
theorem test_decode_wrnibc : decode 0b1001_11110011_00000000#20 = .wrnibc 0xF3 0 := by decide
theorem test_decode_wrnibd : decode 0b1010_00001111_00000000#20 = .wrnibd 0x0F 0 := by decide
theorem test_decode_reservedB : decode 0b1011_00000000_00000000#20 = .reservedB 0 0 := by decide
theorem test_decode_reservedC : decode 0b1100_00000000_00000000#20 = .reservedC 0 0 := by decide
theorem test_decode_reservedD : decode 0b1101_00000000_00000000#20 = .reservedD 0 0 := by decide
theorem test_decode_reservedE : decode 0b1110_00000000_00000000#20 = .reservedE 0 0 := by decide
theorem test_decode_reservedF : decode 0b1111_00010010_00110100#20 = .reservedF 0x12 0x34 := by decide

/-! ### One step on a small state: the vectors' conventions (POLL_BUDGET = 3, the samples listed) -/

/-- The reset state of the vectors with the samples the environment returns. -/
def vector (samples : List Nat) : State :=
  { State.reset with cfg := { Params.default with pollBudget := 3 }, portIn := samples }

/-- What a state looks like after the request word `w` is stepped. -/
def after {α : Type} (w : Nat) (s : State) (look : State → α) : Option α :=
  match step (s.withFetchWord 20 w) with
  | .next t => some (look t)
  | .fault _ => none
  | .refused _ => none

/-- `POLLR` of the vectors. -/
def pollr : List Token :=
  [.d 0, .dir .input, .rs false, .rw true, .e true, .us 1, .s 0, .e false, .us 0, .e true, .us 1, .e false,
   .rw false, .dir .output]

/-- `T(rs,h)` of the vectors. -/
def tx (rs : Bool) (h : Nibble) : List Token := [.rs rs, .rw false, .us 2, .d h, .e true, .us 1, .e false]

-- V5, V6, V8, V9, V9a to V9c
theorem test_write_nibble_keeps_the_foreign_bits :
    (perform (.writeNibble 0x1) { vector [] with portOut := 0xA5F0, dir := .output }).portOut = 0xA5F1 ∧
    (perform (.writeNibble 0x0) { vector [] with portOut := 0xFFFF }).portOut = 0xFFF0 := by decide
theorem test_write_nibble_shifted :
    (perform (.writeNibble 0x4)
      { vector [] with cfg := { Params.default with portW := 8, dataShift := 4 }, portOut := 0x0A }).portOut = 0x4A := by decide
theorem test_sample_reads_bit_three :
    (perform .sample (vector [0x1238])).flag = true ∧ (perform .sample (vector [0xFFF7])).flag = false := by decide
theorem test_sample_shifted :
    (perform .sample { vector [0x8F] with cfg := { Params.default with portW := 8, dataShift := 4 } }).flag = true ∧
    (perform .sample { vector [0x7F] with cfg := { Params.default with portW := 8, dataShift := 4 } }).trace = [.s 7] := by
  decide
-- V7
theorem test_set_dir_drives_at_once :
    (perform (.setDir .output) { vector [] with portOut := 0x0005 }).dataPins = some 5 := by decide

-- V45, V46
theorem test_nop : after 0x0FFFF (vector []) (fun s => (s.trace, s.a, s.b, s.status, s.op)) = some ([], 0xFF, 0xFF, 0, 0) := by
  decide
-- V30
set_option maxRecDepth 8000 in
theorem test_init_length :
    after 0x10000 (vector [0, 0, 0, 0, 0, 0, 0]) (fun s => (s.trace.length, delayTotal s.trace)) = some (230, 66068) := by
  decide
-- V43
set_option maxRecDepth 8000 in
theorem test_init_timeout_is_sticky :
    after 0x10000 (vector [0, 0, 8, 8, 8, 0, 0, 0, 0]) (fun s => (s.trace.length, s.status, s.initialized, s.flag)) =
      some (249, 1, true, false) := by decide
-- V38
set_option maxRecDepth 8000 in
theorem test_start : after 0x20000 (vector [0, 0, 0, 0, 0, 0, 0, 0])
    (fun s => (s.trace.length, s.portOut, s.initialized, s.enabled)) = some (258, 0x000C, true, true) := by decide
-- V39
theorem test_start_again : after 0x20000 { vector [0] with initialized := true } (·.trace) =
    some (pollr ++ tx false 0 ++ tx false 0xC) := by decide
-- V40
theorem test_enable : after 0x30000 (vector [0]) (fun s => (s.trace, s.initialized, s.enabled)) =
    some (pollr ++ tx false 0 ++ tx false 0xC, false, true) := by decide
-- V31
theorem test_wrcmd : after 0x40100 (vector [0]) (fun s => (s.trace, s.portOut, s.cnt)) =
    some (pollr ++ tx false 0 ++ tx false 1, 0x0001, 2) := by decide
-- V33
theorem test_wrdata : after 0x54100 { vector [0] with portOut := 0xA5F0 } (fun s => (s.trace, s.portOut)) =
    some (pollr ++ tx true 4 ++ tx true 1, 0xA5F1) := by decide
-- V37
theorem test_wrdata_after_timeout : after 0x54100 (vector [8, 8, 8]) (fun s => (s.trace.drop 33, s.flag, s.cnt, s.status)) =
    some (tx true 4 ++ tx true 1, true, 0, 1) := by decide
-- V51
theorem test_setpos : after 0x60105 (vector [0]) (·.trace) = some (pollr ++ tx false 0xC ++ tx false 5) := by decide
-- V56
theorem test_setpos_wraps : after 0x6032C (vector [0]) (·.trace) = some (pollr ++ tx false 0 ++ tx false 0) := by decide
-- V62
theorem test_setpos_bad_row : after 0x60400 (vector [0]) (fun s => (s.trace, s.status, s.dir)) = some ([], 2, .input) := by
  decide
-- V80 to V85
theorem test_reserved : after 0x70000 (vector []) (fun s => (s.trace, s.status)) = some ([], 4) := by decide
theorem test_reservedB : after 0xB0000 (vector []) (fun s => (s.trace, s.status)) = some ([], 4) := by decide
theorem test_reservedC : after 0xC0000 (vector []) (fun s => (s.trace, s.status)) = some ([], 4) := by decide
theorem test_reservedD : after 0xD0000 (vector []) (fun s => (s.trace, s.status)) = some ([], 4) := by decide
theorem test_reservedE : after 0xE0000 (vector []) (fun s => (s.trace, s.status)) = some ([], 4) := by decide
theorem test_reservedF : after 0xF1234 (vector []) (fun s => (s.op, s.a, s.b, s.status)) = some (0xF, 0x12, 0x34, 4) := by decide
-- V24: ready on the last allowed sample
theorem test_poll_ready_at_last : after 0x80000 (vector [8, 8, 0]) (fun s => (s.trace.length, s.flag, s.cnt, s.status)) =
    some (32, false, 0, 0) := by decide
-- V25: the third retry delay is there though no retry follows
theorem test_poll_timeout : after 0x80000 (vector [8, 8, 8]) (fun s => (s.trace.drop 30, s.flag, s.cnt, s.status)) =
    some ([.us 10, .rw false, .dir .output], true, 0, 1) := by decide
-- V14
theorem test_wrnibc : after 0x9F300 (vector []) (fun s => (s.trace, s.a, s.dir, s.portOut)) =
    some (tx false 3, 0xF3, .input, 0x0003) := by decide
-- V13
theorem test_wrnibd : after 0xA0F00 (vector []) (fun s => (s.trace, s.rs, s.portOut)) = some (tx true 0xF, true, 0x000F) := by
  decide

/-! ### One event at a time -/

/-- What a state looks like after `n` events. -/
def afterTicks {α : Type} (n : Nat) (s : State) (look : State → α) : Option α :=
  match ticks n s with
  | .next t => some (look t)
  | .fault _ => none
  | .refused _ => none

/-- WRNIBC 0x3 presented to an idle core. -/
def presented : State := (vector []).present [0x90300#20]

-- R52, R14, R77: acceptance, two bus steps, then the delay is asked for; seven bus steps and the completion make nine events
theorem test_events_of_a_transfer :
    afterTicks 3 presented (fun s => (s.trace, s.delayRequest)) =
      some ([.rs false, .rw false], some (.microseconds, 2#6)) ∧
    afterTicks 8 presented (fun s => (s.busy, s.trace.length)) = some (true, 7) ∧
    afterTicks 9 presented (fun s => (s.busy, s.responses)) = some (false, [0#3]) := by decide
-- R161: a reset with E high cuts the pulse short, and no response is given
theorem test_reset_abandons :
    (afterTicks 6 presented id).map (fun s => s.e) = some true ∧
    (afterTicks 6 presented id).bind (fun s => afterTicks 1 s.raiseReset (fun u => (u.e, u.busy, u.responses, u.trace.length)))
      = some (false, false, [], 5) := by decide
-- R181, R161: the run is over at the completion event, and never where a reset abandons the last request
theorem test_run_over :
    afterTicks 8 presented (·.runOver) = some false ∧ afterTicks 9 presented (·.runOver) = some true ∧
    (afterTicks 6 presented id).bind (fun s => afterTicks 9 s.raiseReset (fun u => (u.busy, u.runOver)))
      = some (false, false) := by decide
-- R24, P4: the environment changes the foreign bits between two bus steps of a transfer
theorem test_foreign_bits_move :
    after 0x90300 { vector [] with portOut := 0xA5F0, foreign := [none, none, some 0x1230] } (·.portOut) = some 0x1233 := by decide
-- V75, V76, V77
theorem test_pseudo_operations :
    (Pseudo.printstr [0x48, 0x69, 0]).expand Params.default = .ok [.wrdata 0x48 0, .wrdata 0x69 0] ∧
    (Pseudo.printstr [0]).expand Params.default = .ok [] ∧
    (Pseudo.putchar 0).expand Params.default = .ok [.wrdata 0 0] := by decide

/-! ### Witnesses: states and operands that meet the hypotheses of the statements of the same name -/

theorem accepting : State.reset.cfg.wf = true ∧ State.reset.seq = .idle := by decide

/-- A transfer's line under way, with a further request presented. -/
def running : State := { presented with seq := .run 0x9 2 [.bus (.delayUs 2)] .none }

/-- A configuration whose data field ends at the port's last bit. -/
def highField : State := { vector [] with cfg := { Params.default with portW := 8, dataShift := 4 } }

-- bits below, at both ends of and (default configuration) above the data field; both directions
theorem witness_WriteNibbleWritesOnlyTheDataField :
    highField.cfg.wf = true ∧ ¬ (4 ≤ 3 ∧ 3 < 4 + 4) ∧ (4 ≤ 4 ∧ 4 < 4 + 4) ∧ (4 ≤ 7 ∧ 7 < 4 + 4) ∧ 7 < highField.cfg.portW ∧
    State.reset.cfg.wf = true ∧ ¬ (0 ≤ 4 ∧ 4 < 0 + 4) ∧ 4 < State.reset.cfg.portW ∧ State.reset.dir = .input ∧
    ({ State.reset with dir := .output }).dir = .output := by decide
-- the lines floating, and driven
theorem witness_WrnibcIsOneControlTransfer :
    State.reset.cfg.wf = true ∧ State.reset.seq = .idle ∧ State.reset.dir = .input ∧
    ({ State.reset with dir := .output }).dir = .output := by decide
theorem witness_WrnibdIsOneDataTransfer :
    State.reset.cfg.wf = true ∧ State.reset.seq = .idle ∧ State.reset.dir = .input ∧
    ({ State.reset with dir := .output }).dir = .output := by decide
theorem witness_NibbleWritesDifferInTheFirstTokenOnly : State.reset.cfg.wf = true ∧ State.reset.seq = .idle := accepting
theorem witness_PollReadsUntilReadyOrBudget : State.reset.cfg.wf = true ∧ State.reset.seq = .idle := accepting
-- ready at the first sample, ready at the last allowed one, timed out
theorem witness_PollTraceLength :
    (vector [0]).cfg.wf = true ∧ (vector [0]).seq = .idle ∧ busyAt (vector [0]) 0 = false ∧
    after 0x80000 (vector [0]) (·.timeout) = some false ∧ after 0x80000 (vector [8, 8, 0]) (·.timeout) = some false ∧
    after 0x80000 (vector [8, 8, 8]) (·.timeout) = some true := by decide
theorem witness_WrcmdPollsThenSendsTheCommand : State.reset.cfg.wf = true ∧ State.reset.seq = .idle := accepting
theorem witness_WrdataPollsThenSendsTheData : State.reset.cfg.wf = true ∧ State.reset.seq = .idle := accepting
/-- Every poll of an operation ready at once. -/
def allReady : State := vector (List.replicate 8 0)
theorem allReady_delays : defaultDelays allReady.cfg := ⟨by decide, by decide, by decide, by decide, by decide⟩
theorem witness_InitSendsTheWholeSequence :
    allReady.cfg.wf = true ∧ allReady.seq = .idle ∧ defaultDelays allReady.cfg ∧ readyAtOnce allReady 7 :=
  ⟨by decide, by decide, allReady_delays, by unfold readyAtOnce; decide⟩
theorem witness_StartInitializesOnceThenTurnsOn :
    allReady.cfg.wf = true ∧ allReady.seq = .idle ∧ defaultDelays allReady.cfg ∧ readyAtOnce allReady 8 ∧
    allReady.initialized = false ∧ ({ allReady with initialized := true }).initialized = true :=
  ⟨by decide, by decide, allReady_delays, by unfold readyAtOnce; decide, by decide, by decide⟩
theorem witness_EnableTurnsOnTheDisplay : State.reset.cfg.wf = true ∧ State.reset.seq = .idle := accepting
theorem witness_NopOnlyAcceptsAndCompletes : State.reset.cfg.wf = true ∧ State.reset.seq = .idle := accepting
theorem witness_SetposSendsTheCursorCommand :
    State.reset.cfg.wf = true ∧ State.reset.seq = .idle ∧ 0#8 ≤ 3#8 ∧ 1#8 ≤ 3#8 ∧ 2#8 ≤ 3#8 ∧ 3#8 ≤ 3#8 := by decide
theorem witness_SetposIgnoresAnInvalidRow :
    State.reset.cfg.wf = true ∧ State.reset.seq = .idle ∧ 3#8 < 4#8 ∧ 3#8 < 255#8 := by decide
theorem witness_ReservedCodesCompleteAsIllegal :
    State.reset.cfg.wf = true ∧ State.reset.seq = .idle ∧ (Instr.reserved7 0 0).isReserved = true ∧
    (Instr.reservedB 0 0).isReserved = true ∧ (Instr.reservedC 0 0).isReserved = true ∧
    (Instr.reservedD 0 0).isReserved = true ∧ (Instr.reservedE 0 0).isReserved = true ∧
    (Instr.reservedF 0 0).isReserved = true := by decide
theorem witness_PowerOnSequenceIsSentOnce :
    State.reset.cfg.wf = true ∧ State.reset.seq = .idle ∧ State.reset.cfg.tInit3Ms ≠ 40 ∧ State.reset.cfg.tInit4Ms ≠ 40 ∧
    State.reset.initialized = false := by decide
theorem witness_StatusReportsAtMostOneCause :
    State.reset.cfg.wf = true ∧ State.reset.seq = .idle ∧ after 0x80000 (vector [8, 8, 8]) (·.timeout) = some true ∧
    after 0x60400 (vector []) (·.badRow) = some true ∧ after 0x70000 (vector []) (·.illegal) = some true := by decide
theorem witness_SessionFlagsAreOnlyEverSet : State.reset.cfg.wf = true ∧ State.reset.seq = .idle := accepting
theorem witness_OperationsLeaveTheBusIdle :
    State.reset.cfg.wf = true ∧ State.reset.seq = .idle ∧ State.reset.e = false ∧ State.reset.rw = false ∧
    polls (.setpos 3 0) = true ∧ polls (.setpos 4 0) = false := by decide
theorem witness_ResetAbandonsAndClears : running.raiseReset.cfg.wf = true ∧ running.raiseReset.rst = true := by decide
theorem witness_ResetLeavesTheEnvironmentAlone :
    running.raiseReset.cfg.wf = true ∧ running.raiseReset.rst = true := by decide

theorem reset_inv : CoreInv State.reset := ⟨by decide, by decide, by decide, by decide, by decide, ⟨by decide, by decide, by decide⟩⟩
/-- Idle, with a NOP presented. -/
def nopPresented : State := State.reset.present [0#20]
theorem nopPresented_inv : CoreInv nopPresented := ⟨by decide, by decide, by decide, by decide, by decide, ⟨by decide, by decide, by decide⟩⟩
theorem witness_StepKeepsTheInvariant : ∃ t, CoreInv nopPresented ∧ step nopPresented = .next t :=
  ⟨_, nopPresented_inv, rfl⟩
theorem witness_TickKeepsTheInvariant : ∃ t, CoreInv nopPresented ∧ tick nopPresented = .next t :=
  ⟨_, nopPresented_inv, rfl⟩
theorem witness_StepRunsTheDecodedRequest :
    nopPresented.rst = false ∧ nopPresented.seq = .idle ∧ nopPresented.requests = 0#20 :: [] := by decide
theorem witness_IdleCoreWaits :
    State.reset.cfg.wf = true ∧ State.reset.rst = false ∧ State.reset.seq = .idle ∧ State.reset.requests = [] ∧
    running.raiseReset.cfg.wf = true ∧ running.raiseReset.rst = true := by decide
theorem witness_AcceptanceLatchesAndBusyHolds :
    nopPresented.cfg.wf = true ∧ nopPresented.rst = false ∧ nopPresented.seq = .idle ∧ nopPresented.requests = 0#20 :: [] ∧
    running.cfg.wf = true ∧ running.rst = false ∧ running.seq ≠ .idle := by decide
theorem witness_CompletionEventGivesTheResponse :
    let s : State := { running with seq := .run 0x9 7 [] .none }
    s.cfg.wf = true ∧ s.rst = false ∧ s.seq = .run 0x9 7 [] .none ∧
    State.reset.cfg.wf = true ∧ State.reset.rst = false ∧ State.reset.seq = .idle := by decide
-- a bus step, an action with no bus step, the completion
theorem witness_SequencerCountsBusSteps :
    running.rst = false ∧ running.seq = .run 0x9 2 [.bus (.delayUs 2)] .none ∧
    afterTicks 1 running (·.seq) = some (.run 0x9 3 [] .none) ∧
    afterTicks 1 { running with seq := .run 0x8 4 [.loadCnt] .none } (·.seq) = some (.run 0x8 4 [] .none) ∧
    afterTicks 1 { running with seq := .run 0x9 7 [] .none } (·.seq) = some .idle := by decide
theorem witness_StepIsTheEventsUpToCompletion :
    (∃ t, nopPresented.rst = false ∧ nopPresented.requests ≠ [] ∧ step nopPresented = .next t) ∧
    ∃ t, running.rst = false ∧ running.seq ≠ .idle ∧ step running = .next t :=
  ⟨⟨_, by decide, by decide, rfl⟩, ⟨_, by decide, by decide, rfl⟩⟩
-- R7: the ends of the ranges are inside, the values beside them outside
theorem test_ends_of_the_ranges :
    let c := Params.default
    ({ c with portW := 4 }).wf = true ∧ ({ c with portW := 3 }).wf = false ∧
    ({ c with dataShift := 12 }).wf = true ∧ ({ c with dataShift := 13 }).wf = false ∧
    ({ c with cntW := 1, pollBudget := 1 }).wf = true ∧ ({ c with cntW := 0, pollBudget := 0 }).wf = false ∧
    ({ c with cntW := 2, pollBudget := 3 }).wf = true ∧ ({ c with cntW := 2, pollBudget := 4 }).wf = false ∧
    ({ c with pollBudget := 0 }).wf = false ∧
    ({ c with tInit3Ms := 40, tInit4Ms := 1, tPollSetupUs := 0, tPollGapUs := 10, tPollRetryUs := 0 }).wf = true ∧
    ({ c with tInit3Ms := 0 }).wf = false ∧ ({ c with tInit3Ms := 41 }).wf = false ∧
    ({ c with tInit4Ms := 0 }).wf = false ∧ ({ c with tInit4Ms := 41 }).wf = false ∧
    ({ c with tPollSetupUs := 11 }).wf = false ∧ ({ c with tPollGapUs := 11 }).wf = false ∧
    ({ c with tPollRetryUs := 11 }).wf = false := by decide
theorem witness_ConfigurationOutsideTheSpaceIsRefused :
    InParameterSpace State.reset.cfg ∧ ¬ InParameterSpace { Params.default with pollBudget := 0 } :=
  ⟨⟨by decide, by decide, by decide, by decide, by decide, by decide, by decide, by decide, by decide⟩,
   fun h => absurd h.pollBudget.1 (by decide)⟩
theorem running_inv : CoreInv running :=
  ⟨by decide, by decide, by decide, by decide, by decide, ⟨by decide, by decide, by decide⟩⟩
/-- INIT in its boot delay. -/
def booting : State := { running with seq := .run 0x1 1 [.bus (.delayMs 40)] .none }
theorem booting_inv : CoreInv booting :=
  ⟨by decide, by decide, by decide, by decide, by decide, ⟨by decide, by decide, by decide⟩⟩
/-- A poll before its retry delay. -/
def retrying : State := { running with seq := .run 0x8 12 [.retryIfBusy] .none, flag := true }
theorem retrying_inv : CoreInv retrying :=
  ⟨by decide, by decide, by decide, by decide, by decide, ⟨by decide, by decide, by decide⟩⟩
theorem witness_DelayPortShowsTheDelayStep :
    (CoreInv running ∧ running.rst = false ∧ running.delayRequest = some (.microseconds, 2#6)) ∧
    (CoreInv booting ∧ booting.rst = false ∧ booting.delayRequest = some (.milliseconds, 40#6)) ∧
    (CoreInv retrying ∧ retrying.rst = false ∧ retrying.delayRequest = some (.microseconds, 10#6)) :=
  ⟨⟨running_inv, by decide, by decide⟩, ⟨booting_inv, by decide, by decide⟩, ⟨retrying_inv, by decide, by decide⟩⟩
theorem witness_ForeignBitsNeverMatter : State.reset.cfg.wf = true ∧ State.reset.seq = .idle := accepting
theorem witness_LeftoverFlagCounterAndEnabledNeverMatter :
    State.reset.cfg.wf = true ∧ State.reset.seq = .idle ∧ polls (.poll 0 0) = true := by decide
theorem witness_OnlyStartReadsInitialized :
    State.reset.cfg.wf = true ∧ State.reset.seq = .idle ∧ isStart (.init 0 0) = false := by decide
/-- Two samples with the same busy bit and other bits different. -/
theorem witness_OnlyTheBusyBitOfSamplesMatters :
    (vector [0x8]).cfg.wf = true ∧ (vector [0x8]).seq = .idle ∧ [0xFFFF].length = (vector [0x8]).portIn.length ∧
    ∀ k, busyAt { vector [0x8] with portIn := [0xFFFF] } k = busyAt (vector [0x8]) k := by
  refine ⟨by decide, by decide, by decide, fun k => ?_⟩
  cases k with
  | zero => decide
  | succ k => rfl
theorem witness_UnusedOperandBitsHaveNoEffect :
    State.reset.cfg.wf = true ∧ State.reset.seq = .idle ∧
    (0xF3#8).extractLsb' 0 4 = (0x03#8).extractLsb' 0 4 ∧ 0xF3#8 ≠ 0x03#8 := by decide
theorem witness_RequestLinesAreNotSeenWhileBusy :
    running.cfg.wf = true ∧ running.rst = false ∧ running.seq ≠ .idle := by decide
/-- Every sample the budget allows is busy. -/
theorem witness_EveryOperationCompletesWithinItsBound :
    (vector (List.replicate 24 8)).cfg.wf = true ∧ (vector (List.replicate 24 8)).seq = .idle ∧
    ∀ k, k < 8 * (vector (List.replicate 24 8)).cfg.pollBudget → busyAt (vector (List.replicate 24 8)) k = true := by decide
theorem witness_StepCountsAndDelayTotalsWhenReady :
    allReady.cfg.wf = true ∧ allReady.seq = .idle ∧ defaultDelays allReady.cfg ∧ readyAtOnce allReady 8 :=
  ⟨by decide, by decide, allReady_delays, by unfold readyAtOnce; decide⟩

/-- Steps 40 ms apart are a legal timing of any trace with no longer delay. -/
theorem slow_timing (tokens : List Token) (h : ∀ x ∈ tokens, x.asksUs ≤ 40000) : LegalTiming tokens (fun i => 40000 * i) where
  ordered i _ := by push_cast; linarith
  delayed i hi := by
    have hx : ((tokens[i + 1].asksUs : ℕ) : ℚ) ≤ 40000 := by exact_mod_cast h _ (List.getElem_mem _)
    push_cast; linarith
theorem witness_TransferSetupAndPulseTimes :
    ∃ t, LegalTiming ([.d 0] ++ transferTokens true 0xF ++ [.ms 40]) t := ⟨_, slow_timing _ (by decide)⟩
theorem witness_PollPassTimes :
    ∃ t, LegalTiming ([.rw true] ++ passTokens Params.default 0x8 ++ [.rw false]) t ∧ (0x8#4).getLsbD 3 = true ∧
      ([.rw false] : List Token) ≠ [] := ⟨_, slow_timing _ (by decide), by decide, by decide⟩
theorem witness_InitDelayTimes :
    ∃ t, LegalTiming ([] ++ modeSelectTokens Params.default ++ [.d 0]) t ∧ ([.d 0] : List Token) ≠ [] :=
  ⟨_, slow_timing _ (by decide), by decide⟩
theorem witness_TimedOutPollTakesItsBudget :
    ∃ t, (vector [8, 8, 8]).cfg.wf = true ∧ timesOut (vector [8, 8, 8]) 0 = true ∧
      LegalTiming (pollTokens (vector [8, 8, 8]) 0) t := ⟨_, by decide, by decide, slow_timing _ (by decide)⟩
-- the zero first, last and absent
theorem witness_PseudoOperationsExpand : 0#8 ∉ ([] : List Byte) ∧ 0#8 ∉ [0x48#8, 0x69#8] := by decide
/-- The last request's operation running, a reset raised. -/
def lastCut : State := { running with requests := [], rst := true }
theorem witness_RunIsOverAtTheLastCompletion :
    (State.reset.cfg.wf = true ∧ State.reset.rst = false ∧ State.reset.seq = .idle ∧ State.reset.requests = [] ∧
      [0x90300#20, 0x00000#20] ≠ []) ∧
    ∃ t, CoreInv lastCut ∧ lastCut.rst = true ∧ lastCut.seq ≠ .idle ∧
      lastCut.requests = [] ∧ tick lastCut = .next t :=
  ⟨by decide, _, ⟨by decide, by decide, by decide, by decide, by decide, ⟨by decide, by decide, by decide⟩⟩, by decide,
   by decide, by decide, rfl⟩

end Sys2Proof.Tests
end

section
/-! SUPPORT. The acceptance of a configuration (R7, R37, R90, D34): what `exec`, `step` and `tick` answer for one that is accepted
and for one that is not. -/

namespace Sys2Proof.Machine

open Sys2Proof.Safety

theorem Params.wf_iff_inParameterSpace (c : Params) : c.wf = true ↔ InParameterSpace c := by
  simp only [Params.wf, Bool.and_eq_true, decide_eq_true_eq]
  constructor
  · rintro ⟨⟨⟨⟨⟨⟨⟨⟨⟨⟨⟨port, shift⟩, cntW⟩, budget1⟩, budget2⟩, init3a⟩, init3b⟩, init4a⟩, init4b⟩, setup⟩, gap⟩, retry⟩
    exact ⟨port, by omega, cntW, ⟨budget1, by omega⟩, ⟨init3a, init3b⟩, ⟨init4a, init4b⟩, setup, gap, retry⟩
  · rintro ⟨port, shift, cntW, ⟨budget1, budget2⟩, ⟨init3a, init3b⟩, ⟨init4a, init4b⟩, setup, gap, retry⟩
    refine ⟨⟨⟨⟨⟨⟨⟨⟨⟨⟨⟨port, ?_⟩, cntW⟩, budget1⟩, ?_⟩, init3a⟩, init3b⟩, init4a⟩, init4b⟩, setup⟩, gap⟩, retry⟩
    · omega
    · omega

section Refused

variable {s : State} (hw : ¬ s.cfg.wf = true)
include hw

theorem exec_refused (i : Instr) : exec i s = .refused .configurationOutsideParameterSpace := by
  rw [exec_eq, operate, if_neg hw]

theorem step_refused : step s = .refused .configurationOutsideParameterSpace := by
  rw [step, if_neg hw]

theorem tick_refused : tick s = .refused .configurationOutsideParameterSpace := by
  rw [tick, if_neg hw]

end Refused

section Accepted

variable {s : State} (hw : s.cfg.wf = true)
include hw

/-- Whatever runs, it is finished first (R52); then comes the instruction from its acceptance to its completion. -/
theorem exec_next (i : Instr) : exec i s = .next (finish (accept (ruleOf i (finish s)) (finish s))) := by
  rw [exec_eq, operate, if_pos hw]

/-- A reset, a wait, an operation, or the rest of the one in progress: each answers. -/
theorem step_answers : ∃ t, step s = .next t := by
  rw [step, if_pos hw]
  split
  next => exact ⟨_, rfl⟩
  next =>
    split
    next =>
      split
      next => exact ⟨_, rfl⟩
      next w ws _ => exact ⟨_, exec_next (s := { s with requests := ws }) hw (decode w)⟩
    next => exact ⟨_, rfl⟩

/-- A reset, a wait, an acceptance, a completion, or one line of the running rule: each answers. -/
theorem tick_answers : ∃ t, tick s = .next t := by
  rw [tick, if_pos hw]
  split
  next => exact ⟨_, rfl⟩
  next =>
    split
    next =>
      split
      next => exact ⟨_, rfl⟩
      next => exact ⟨_, rfl⟩
    next => exact ⟨_, rfl⟩
    next => exact ⟨_, rfl⟩

end Accepted

/-- Settles O42: `wf` is the ranges of R7, and `exec`, `step` and `tick` test it before anything else; past the test every branch
of each of them is a next state. -/
theorem configurationOutsideTheSpaceIsRefused : Obligations.ConfigurationOutsideTheSpaceIsRefused := by
  refine ⟨Params.wf_iff_inParameterSpace, fun i s hout => ?_, fun i s hin => ?_⟩
  · have hw : ¬ s.cfg.wf = true := mt (Params.wf_iff_inParameterSpace s.cfg).mp hout
    exact ⟨exec_refused hw i, step_refused hw, tick_refused hw⟩
  · have hw : s.cfg.wf = true := (Params.wf_iff_inParameterSpace s.cfg).mpr hin
    exact ⟨⟨_, exec_next hw i⟩, step_answers hw, tick_answers hw⟩

end Sys2Proof.Machine
end

section
/-! SUPPORT. What a completed operation leaves of the pins, STATUS and the session flags, once for all sixteen (`exec_leaves`):
O27 and O28 are parts of it, and so is the step of the idle invariants (R29) from acceptance to completion. -/

namespace Sys2Proof.Machine

open Sys2Proof.Safety

/-- The terms of R17, R18, R22, R29 and R140 for an operation from `s` to its completion in `t`. -/
structure Leaves (i : Instr) (s t : State) : Prop where
  dir : t.dir = if polls i then .output else s.dir
  e : s.e = false → t.e = false
  rw : s.rw = false → t.rw = false
  status : legalStatus t.status = true
  initialized : t.initialized = (s.initialized || initializes i)
  enabled : t.enabled = (s.enabled || enables i)

theorem legalStatus_timeoutStatus (timedOut : Bool) : legalStatus (timeoutStatus timedOut) = true := by
  cases timedOut <;> rfl

theorem timeoutStatus_or (x y : Bool) : timeoutStatus x ||| timeoutStatus y = timeoutStatus (x || y) := by
  cases x <;> cases y <;> rfl

/-- The items of the first START: the sequence, `INITIALIZED <- 1`, then the display on (R106). -/
theorem firstStart_spec (s : State) (hw : s.cfg.wf = true) :
    let t := runItems (initSequence s.cfg ++ [.setInitialized] ++ writeByte s.cfg false s.cfg.cmdDisplayOn) s
    BusRestored t false (lowNibble s.cfg.cmdDisplayOn) ∧
    ∃ timedOut, t.status = s.status ||| timeoutStatus timedOut ∧ t.initialized = true := by
  intro t
  obtain ⟨ranInit, -, -, statusInit, -⟩ := initSequence_spec s hw
  generalize hp : runItems (initSequence s.cfg) s = p at ranInit statusInit
  have hq : (runItem .setInitialized p).cfg = s.cfg := ranInit.cfg
  have ht : t = runItems (writeByte s.cfg false s.cfg.cmdDisplayOn) (runItem .setInitialized p) := by
    simp only [t, hp, runItems_append, runItems_cons, runItems_nil]
  have h := writeByte_spec false s.cfg.cmdDisplayOn (runItem .setInitialized p) (by rw [hq]; exact hw)
  rw [hq, ← ht] at h
  obtain ⟨-, bus, -, status, initialized⟩ := h
  have hstatus : (runItem .setInitialized p).status = _ := statusInit
  rw [hstatus, BitVec.or_assoc, timeoutStatus_or] at status
  exact ⟨bus, _, status, initialized⟩

/-! ### SETPOS: its row decides between a byte write and BADROW (R120, R121) -/

theorem rowBase_isSome (row : Byte) : (Config.rowBase row).isSome = decide (row ≤ 3#8) := by
  revert row; decide

theorem polls_setpos (a b : Byte) : polls (.setpos a b) = (cursorCommand a b).isSome := by
  rw [cursorCommand, Option.isSome_map, rowBase_isSome]; rfl

theorem ruleSetpos_items_some {a b cmd : Byte} {s : State} (h : cursorCommand a b = some cmd) :
    (ruleSetpos a b s).items = writeByte s.cfg false cmd := by
  simp only [ruleSetpos, h]

theorem ruleSetpos_items_none {a b : Byte} {s : State} (h : cursorCommand a b = none) :
    (ruleSetpos a b s).items = [.badRow] := by
  simp only [ruleSetpos, h]

section Accepted

variable {s : State} (hw : s.cfg.wf = true) (hi : s.seq = .idle)
include hw hi

/-- NOP, a reserved code, SETPOS with an invalid row: at most a cause is recorded. -/
theorem exec_leaves_of_silent {i : Instr} (hp : polls i = false)
    (hr : (ruleOf i s).items = [] ∨ (ruleOf i s).items = [.illegal] ∨ (ruleOf i s).items = [.badRow])
    (hinit : (ruleOf i s).fin.setsInitialized = initializes i) (hen : (ruleOf i s).fin.setsEnabled = enables i) :
    ∃ t, exec i s = .next t ∧ Leaves i s t := by
  refine ⟨_, exec_idle i s hw hi, ?_⟩
  have keeps (t : State) (ht : t = { accept (ruleOf i s) s with status := t.status })
      (status : legalStatus t.status = true) : Leaves i s (complete (ruleOf i s).fin t) := by
    refine ⟨?_, ?_, ?_, status, ?_, ?_⟩ <;> rw [ht]
    · exact (if_neg (by rw [hp]; exact Bool.false_ne_true)).symm
    · exact id
    · exact id
    · exact congrArg (s.initialized || ·) hinit
    · exact congrArg (s.enabled || ·) hen
  obtain hr | hr | hr := hr <;> rw [hr]
  · exact keeps _ rfl rfl
  · exact keeps (recordOutcome .illegal _) rfl (by simp [recordOutcome, Cause.bit, legalStatus])
  · exact keeps (recordOutcome .badRow _) rfl (by simp [recordOutcome, Cause.bit, legalStatus])

/-- WRNIBC and WRNIBD. -/
theorem exec_leaves_of_transfer {i : Instr} {rs : Bool} {n : Nibble} (hp : polls i = false)
    (hr : (ruleOf i s).items = transfer rs n)
    (hinit : (ruleOf i s).fin.setsInitialized = initializes i) (hen : (ruleOf i s).fin.setsEnabled = enables i) :
    ∃ t, exec i s = .next t ∧ Leaves i s t := by
  obtain ⟨t, ht, -, -, rw, e, dir, -, -, -, status, initialized, enabled⟩ := exec_transfer i s rs n hw hi hr
  rw [hinit] at initialized
  rw [hen] at enabled
  exact ⟨t, ht, by rw [hp]; exact dir, fun _ => e, fun _ => rw, by rw [status]; rfl, initialized, enabled⟩

/-- An operation whose items end with a poll or a byte write. -/
theorem exec_leaves_of_restored {i : Instr} {l : List Item} {rs timedOut v : Bool} {data : Nibble}
    (bus : BusRestored (runItems l (accept (ruleOf i s) s)) rs data)
    (status : (runItems l (accept (ruleOf i s) s)).status = 0#3 ||| timeoutStatus timedOut)
    (initialized : (runItems l (accept (ruleOf i s) s)).initialized = v)
    (hp : polls i = true) (hr : (ruleOf i s).items = l)
    (hinit : (v || (ruleOf i s).fin.setsInitialized) = (s.initialized || initializes i))
    (hen : (ruleOf i s).fin.setsEnabled = enables i) : ∃ t, exec i s = .next t ∧ Leaves i s t := by
  have he := exec_idle i s hw hi
  rw [hr] at he
  obtain ⟨_, _, ran⟩ := runItems_ran l (accept (ruleOf i s) s)
  refine ⟨_, he, ?_, fun _ => bus.e, fun _ => bus.rw, ?_, ?_, ?_⟩
  · rw [complete_dir, bus.dir, if_pos hp]
  · rw [complete_status, status, BitVec.zero_or, legalStatus_timeoutStatus]
  · rw [complete_initialized, initialized, hinit]
  · rw [complete_enabled, ran.enabled, accept_enabled, hen]

/-- WRCMD, WRDATA, ENABLE, a later START, SETPOS with a valid row. -/
theorem exec_leaves_of_writeByte {i : Instr} (rs : Bool) (b : Byte) (hp : polls i = true)
    (hr : (ruleOf i s).items = writeByte s.cfg rs b)
    (hinit : (s.initialized || (ruleOf i s).fin.setsInitialized) = (s.initialized || initializes i))
    (hen : (ruleOf i s).fin.setsEnabled = enables i) : ∃ t, exec i s = .next t ∧ Leaves i s t := by
  obtain ⟨-, bus, -, status, initialized⟩ := writeByte_spec rs b (accept (ruleOf i s) s) hw
  rw [accept_cfg] at bus status initialized
  exact exec_leaves_of_restored hw hi bus status initialized hp hr hinit hen

theorem exec_poll_leaves (a b : Byte) : ∃ t, exec (.poll a b) s = .next t ∧ Leaves (.poll a b) s t := by
  obtain ⟨-, bus, -, status, initialized⟩ := poll_spec (accept (ruleOf (.poll a b) s) s) hw
  rw [accept_cfg] at bus status initialized
  exact exec_leaves_of_restored hw hi bus status initialized rfl rfl rfl rfl

theorem exec_init_leaves (a b : Byte) : ∃ t, exec (.init a b) s = .next t ∧ Leaves (.init a b) s t := by
  obtain ⟨-, bus, -, status, initialized⟩ := initSequence_spec (accept (ruleOf (.init a b) s) s) hw
  rw [accept_cfg] at bus status initialized
  exact exec_leaves_of_restored hw hi bus status initialized rfl rfl rfl rfl

/-- A START with `INITIALIZED` set is the byte write alone (R106). -/
theorem exec_start_leaves (a b : Byte) : ∃ t, exec (.start a b) s = .next t ∧ Leaves (.start a b) s t := by
  cases h : s.initialized with
  | true =>
    exact exec_leaves_of_writeByte hw hi false s.cfg.cmdDisplayOn rfl
      (by simp only [ruleOf, ruleStart, h, if_true, List.nil_append]) (by rw [h]; rfl) rfl
  | false =>
    obtain ⟨bus, timedOut, status, initialized⟩ := firstStart_spec (accept (ruleOf (.start a b) s) s) hw
    rw [accept_cfg] at bus status initialized
    exact exec_leaves_of_restored hw hi bus status initialized rfl
      (by simp only [ruleOf, ruleStart, h, Bool.false_eq_true, if_false]) (by rw [h]; rfl) rfl

/-- Every operation from an idle state. -/
theorem exec_leaves (i : Instr) : ∃ t, exec i s = .next t ∧ Leaves i s t := by
  cases i with
  | nop a b => exact exec_leaves_of_silent hw hi rfl (.inl rfl) rfl rfl
  | init a b => exact exec_init_leaves hw hi a b
  | start a b => exact exec_start_leaves hw hi a b
  | enable a b => exact exec_leaves_of_writeByte hw hi false s.cfg.cmdDisplayOn rfl rfl rfl rfl
  | wrcmd a b => exact exec_leaves_of_writeByte hw hi false a rfl rfl rfl rfl
  | wrdata a b => exact exec_leaves_of_writeByte hw hi true a rfl rfl rfl rfl
  | setpos a b =>
    have hp := polls_setpos a b
    cases hc : cursorCommand a b with
    | none =>
      rw [hc] at hp
      exact exec_leaves_of_silent hw hi hp (.inr (.inr (ruleSetpos_items_none hc))) rfl rfl
    | some cmd =>
      rw [hc] at hp
      exact exec_leaves_of_writeByte hw hi false cmd hp (ruleSetpos_items_some hc) rfl rfl
  | poll a b => exact exec_poll_leaves hw hi a b
  | wrnibc a b => exact exec_leaves_of_transfer hw hi rfl rfl rfl rfl
  | wrnibd a b => exact exec_leaves_of_transfer hw hi rfl rfl rfl rfl
  | reserved7 a b => exact exec_leaves_of_silent hw hi rfl (.inr (.inl rfl)) rfl rfl
  | reservedB a b => exact exec_leaves_of_silent hw hi rfl (.inr (.inl rfl)) rfl rfl
  | reservedC a b => exact exec_leaves_of_silent hw hi rfl (.inr (.inl rfl)) rfl rfl
  | reservedD a b => exact exec_leaves_of_silent hw hi rfl (.inr (.inl rfl)) rfl rfl
  | reservedE a b => exact exec_leaves_of_silent hw hi rfl (.inr (.inl rfl)) rfl rfl
  | reservedF a b => exact exec_leaves_of_silent hw hi rfl (.inr (.inl rfl)) rfl rfl

/-- The idle invariants of R29, from an idle state to the completion of the next operation. -/
theorem finish_accept_idleOk (i : Instr) (h : IdleOk s) : IdleOk (finish (accept (ruleOf i s) s)) := by
  obtain ⟨t, ht, hl⟩ := exec_leaves hw hi i
  rw [exec_next hw, finish_idle hi, Host.Outcome.next.injEq] at ht
  rw [ht]
  exact ⟨hl.e h.e, hl.rw h.rw, hl.status⟩

end Accepted

/-- Settles O27: the flags of `Leaves`. -/
theorem sessionFlagsAreOnlyEverSet : Obligations.SessionFlagsAreOnlyEverSet := by
  intro i s hw hi
  obtain ⟨t, ht, hl⟩ := exec_leaves hw hi i
  exact ⟨t, ht, hl.initialized, hl.enabled⟩

/-- Settles O28: the pins of `Leaves`. -/
theorem operationsLeaveTheBusIdle : Obligations.OperationsLeaveTheBusIdle := by
  intro i s hw hi
  obtain ⟨t, ht, hl⟩ := exec_leaves hw hi i
  exact ⟨t, ht, hl.dir, hl.e, hl.rw⟩

end Sys2Proof.Machine
end

section
/-! SUPPORT. Events and steps (R14, R41): what one event keeps (O34), that a running operation reaches its completion
after finitely many events with the CORE busy at each before (`reachesFinish`), so that a step is those events (O40) and keeps what
every event keeps (O33). -/

namespace Sys2Proof.Machine

open Sys2Proof.Safety

/-! ### One event -/

theorem tick_wf {s t : State} (h : tick s = .next t) : s.cfg.wf = true := by
  by_contra hw
  rw [tick_refused hw] at h
  cases h

theorem step_wf {s t : State} (h : step s = .next t) : s.cfg.wf = true := by
  by_contra hw
  rw [step_refused hw] at h
  cases h

section Accepted

variable {s : State} (hw : s.cfg.wf = true)
include hw

theorem tick_reset (hr : s.rst = true) : tick s = .next (applyReset s) := by
  rw [tick, if_pos hw, if_pos hr]

theorem tick_wait (hr : s.rst = false) (hq : s.seq = .idle) (hl : s.requests = []) : tick s = .next s := by
  rw [tick, if_pos hw, hr, hq, hl]; rfl

/-- One line of the running operation's rule. -/
theorem tick_line {op : Nibble} {k : Nat} {it : Item} {rest : List Item} {fin : AtCompletion} (hr : s.rst = false)
    (hq : s.seq = .run op k (it :: rest) fin) : tick s = .next (sequenceItem it op k rest fin s) := by
  rw [tick, if_pos hw, hr, hq]; rfl

/-- The completion event (R53). -/
theorem tick_complete {op : Nibble} {k : Nat} {fin : AtCompletion} (hr : s.rst = false)
    (hq : s.seq = .run op k [] fin) : tick s = .next (complete fin s) := by
  rw [tick, if_pos hw, hr, hq]; rfl

end Accepted

/-- The three kinds of lines by what they do to `CNT`: a decrement, a load, nothing. -/
theorem sequenceItem_cnt (it : Item) (op : Nibble) (k : Nat) (rest : List Item) (fin : AtCompletion) (s : State) :
    (sequenceItem it op k rest fin s).cnt =
      match it with | .loadCnt => s.cfg.pollBudget | .nextIteration => s.cnt - 1 | _ => s.cnt := by
  cases it with
  | bus x => exact perform_cnt x s
  | retryIfBusy => simp only [sequenceItem, retryDelay]; split <;> simp
  | nextIteration => simp only [sequenceItem]; split <;> rfl
  | outcome => simp only [sequenceItem, runItem, recordPollOutcome]; split <;> rfl
  | loadCnt => rfl
  | setInitialized => rfl
  | badRow => rfl
  | illegal => rfl

theorem sequenceItem_cfg (it : Item) (op : Nibble) (k : Nat) (rest : List Item) (fin : AtCompletion) (s : State) :
    (sequenceItem it op k rest fin s).cfg = s.cfg := by
  obtain ⟨_, _, _, _, ran, -, -⟩ := sequenceItem_shape it op k rest fin s
  exact ran.cfg

theorem sequenceItem_rst (it : Item) (op : Nibble) (k : Nat) (rest : List Item) (fin : AtCompletion) (s : State) :
    (sequenceItem it op k rest fin s).rst = s.rst := by
  obtain ⟨_, _, _, _, ran, -, -⟩ := sequenceItem_shape it op k rest fin s
  exact ran.rst

/-- Only the loop test puts further lines before those to come. -/
theorem sequenceItem_seq {it : Item} (hit : it ≠ .nextIteration) (op : Nibble) (k : Nat) (rest : List Item)
    (fin : AtCompletion) (s : State) : ∃ k', (sequenceItem it op k rest fin s).seq = .run op k' rest fin := by
  cases it with
  | nextIteration => exact absurd rfl hit
  | bus x => exact ⟨_, rfl⟩
  | retryIfBusy => exact ⟨_, rfl⟩
  | loadCnt => exact ⟨_, rfl⟩
  | outcome => exact ⟨_, rfl⟩
  | setInitialized => exact ⟨_, rfl⟩
  | badRow => exact ⟨_, rfl⟩
  | illegal => exact ⟨_, rfl⟩

/-- The rule of an operation does not depend on the requests still presented (R43). -/
theorem ruleOf_requests (i : Instr) (s : State) (ws : List Request) :
    ruleOf i { s with requests := ws } = ruleOf i s := by
  cases i <;> rfl

theorem sequenceItem_cnt_lt (it : Item) (op : Nibble) (k : Nat) (rest : List Item) (fin : AtCompletion) (s : State)
    (hw : s.cfg.wf = true) (h : s.cnt < 2 ^ s.cfg.cntW) : (sequenceItem it op k rest fin s).cnt < 2 ^ s.cfg.cntW := by
  rw [sequenceItem_cnt]
  split
  · exact (Params.wf_budget hw).2
  · omega
  · exact h

/-- Settles O39: `sequenceItem_shape` for a line, and the completion event. -/
theorem sequencerCountsBusSteps : Obligations.SequencerCountsBusSteps := by
  intro s t op k rest fin hr hq ht
  have hw := tick_wf ht
  cases rest with
  | nil =>
    rw [tick_complete hw hr hq] at ht
    cases ht
    exact .inr ⟨rfl, .inr ⟨rfl, rfl⟩⟩
  | cons it rest =>
    rw [tick_line hw hr hq] at ht
    cases ht
    obtain ⟨toks, n, k', rest', ran, hseq, ⟨rfl, hlen⟩ | ⟨rfl, rfl⟩⟩ := sequenceItem_shape it op k rest fin s
    · obtain ⟨tok, rfl⟩ := List.length_eq_one_iff.mp hlen
      exact .inl ⟨tok, rest', ran.trace, hseq⟩
    · exact .inr ⟨by simpa using ran.trace, .inl ⟨rest', hseq⟩⟩

/-! ### The invariant under one event -/

theorem applyReset_inv {s : State} (h : CoreInv s) : CoreInv (applyReset s) where
  cfg := h.cfg
  port := portWriteNibble_lt _ _
  counter := Nat.two_pow_pos _
  delays := rfl
  unanswered hs := absurd rfl hs
  settled := by rw [finish_idle rfl]; exact ⟨rfl, rfl, rfl⟩

theorem accept_inv {s : State} (h : CoreInv s) (hi : s.seq = .idle) (i : Instr) : CoreInv (accept (ruleOf i s) s) where
  cfg := h.cfg
  port := h.port
  counter := h.counter
  delays := ruleOf_delays i h.cfg
  unanswered _ := rfl
  settled := finish_accept_idleOk h.cfg hi i (by simpa only [finish_idle hi] using h.settled)

theorem complete_inv {s : State} {op : Nibble} {k : Nat} {fin : AtCompletion} (h : CoreInv s)
    (hq : s.seq = .run op k [] fin) : CoreInv (complete fin s) where
  cfg := h.cfg
  port := h.port
  counter := h.counter
  delays := rfl
  unanswered hs := absurd rfl hs
  settled := by rw [finish_idle rfl]; simpa only [finish_run hq, runItems_nil] using h.settled

theorem sequenceItem_inv {s : State} {op : Nibble} {k : Nat} {it : Item} {rest : List Item} {fin : AtCompletion}
    (h : CoreInv s) (hq : s.seq = .run op k (it :: rest) fin) : CoreInv (sequenceItem it op k rest fin s) := by
  obtain ⟨toks, n, k', rest', ran, -, -⟩ := sequenceItem_shape it op k rest fin s
  have hcfg : (sequenceItem it op k rest fin s).cfg = s.cfg := ran.cfg
  have hdelays := h.delays
  rw [hq, pendingDelaysInRange, List.all_cons, Bool.and_eq_true] at hdelays
  refine ⟨by rw [hcfg]; exact h.cfg, by rw [hcfg]; exact ran.port h.port,
    by rw [hcfg]; exact sequenceItem_cnt_lt _ _ _ _ _ s h.cfg h.counter,
    sequenceItem_delays _ _ _ _ _ s h.cfg hdelays.2, fun _ => ran.answered.trans (h.unanswered (by simp [hq])), ?_⟩
  rw [finish_sequenceItem _ _ _ _ _ _ h.cfg, ← finish_run hq]
  exact h.settled

/-- The invariant does not speak of the requests still presented. -/
theorem coreInv_withRequests {s : State} (h : CoreInv s) (hi : s.seq = .idle) (ws : List Request) :
    CoreInv { s with requests := ws } :=
  ⟨h.cfg, h.port, h.counter, h.delays, h.unanswered, by
    have hs := h.settled
    rw [finish_idle hi] at hs
    rw [finish_idle (s := { s with requests := ws }) hi]
    exact ⟨hs.e, hs.rw, hs.status⟩⟩

/-- Settles O34: by the kind of the event, a reset, a wait, an acceptance, a completion or a line. -/
theorem tickKeepsTheInvariant : Obligations.TickKeepsTheInvariant := by
  intro s t h ht
  have hw := h.cfg
  cases hr : s.rst with
  | true =>
    rw [tick_reset hw hr] at ht
    cases ht
    exact applyReset_inv h
  | false =>
    cases hq : s.seq with
    | idle =>
      cases hl : s.requests with
      | nil =>
        rw [tick_wait hw hr hq hl] at ht
        cases ht
        exact h
      | cons w ws =>
        rw [tick_accept hw hr hq hl, ← ruleOf_requests (decode w) s ws] at ht
        cases ht
        exact accept_inv (coreInv_withRequests h hq ws) hq (decode w)
    | run op k rest fin =>
      cases rest with
      | nil =>
        rw [tick_complete hw hr hq] at ht
        cases ht
        exact complete_inv h hq
      | cons it rest =>
        rw [tick_line hw hr hq] at ht
        cases ht
        exact sequenceItem_inv h hq

/-! ### Any number of events -/

/-- What every event keeps, any number of events keep. -/
theorem ticks_keep {P : State → Prop} (h : ∀ s t, P s → tick s = .next t → P t) (n : Nat) :
    ∀ s t, P s → ticks n s = .next t → P t := by
  induction n with
  | zero =>
    rintro s t hs ht
    cases ht
    exact hs
  | succ n ih =>
    intro s t hs ht
    rw [ticks] at ht
    cases h1 : tick s with
    | next u => exact ih u t (h s u hs h1) (by rwa [h1] at ht)
    | fault r => rw [h1] at ht; cases ht
    | refused r => rw [h1] at ht; cases ht

/-- The events from `s` lead to the completion of the operation in progress, and the CORE is busy at every one before. -/
def ReachesFinish (s : State) : Prop :=
  ∃ n, ticks n s = .next (finish s) ∧ ∀ m u, m < n → ticks m s = .next u → u.seq ≠ .idle

theorem ticks_succ_of_tick {s t : State} (h : tick s = .next t) (n : Nat) : ticks (n + 1) s = ticks n t := by
  rw [ticks, h, andThen_next]

theorem reachesFinish_idle {s : State} (h : s.seq = .idle) : ReachesFinish s :=
  ⟨0, by rw [finish_idle h]; rfl, fun m _ hm => absurd hm (Nat.not_lt_zero m)⟩

theorem reachesFinish_of_tick {s t : State} (hr : s.rst = false) (hq : s.seq ≠ .idle) (ht : tick s = .next t)
    (h : ReachesFinish t) : ReachesFinish s := by
  obtain ⟨n, hn, busy⟩ := h
  refine ⟨n + 1, by rw [ticks_succ_of_tick ht, hn, finish_tick hr hq ht], fun m u hm hu => ?_⟩
  cases m with
  | zero => cases hu; exact hq
  | succ m => exact busy m u (by omega) (by rwa [ticks_succ_of_tick ht] at hu)

/-- From every state in which `rest` is to run and `CNT` is at most `n` the completion is reached. -/
def Ends (n : Nat) (rest : List Item) : Prop :=
  ∀ s op k fin, s.cfg.wf = true → s.rst = false → s.cnt ≤ n → s.seq = .run op k rest fin → ReachesFinish s

theorem ends_nil (n : Nat) : Ends n [] := fun _ _ _ _ hw hr _ hq =>
  reachesFinish_of_tick hr (by simp [hq]) (tick_complete hw hr hq) (reachesFinish_idle rfl)

/-- A line that is no loop test leaves the lines after it to run, with `CNT` as it was unless it loads `CNT`. -/
theorem ends_cons {n : Nat} {it : Item} {rest : List Item} (hit : it ≠ .nextIteration)
    (h : ∀ m, it = .loadCnt ∨ m ≤ n → Ends m rest) : Ends n (it :: rest) := by
  intro s op k fin hw hr hc hq
  have hcnt : it = .loadCnt ∨ (sequenceItem it op k rest fin s).cnt ≤ n := by
    rw [sequenceItem_cnt]
    split
    · exact .inl rfl
    · exact absurd rfl hit
    · exact .inr hc
  obtain ⟨k', hseq⟩ := sequenceItem_seq hit op k rest fin s
  exact reachesFinish_of_tick hr (by simp [hq]) (tick_line hw hr hq)
    (h _ hcnt _ op k' fin (by rwa [sequenceItem_cfg]) (by rwa [sequenceItem_rst]) le_rfl hseq)

theorem ends_append {n : Nat} {rest : List Item} (h : ∀ m, m ≤ n → Ends m rest) :
    ∀ l : List Item, (∀ it ∈ l, it ≠ .nextIteration ∧ it ≠ .loadCnt) → ∀ m, m ≤ n → Ends m (l ++ rest) := by
  intro l
  induction l with
  | nil => exact fun _ => h
  | cons it l ih =>
    intro hl m hm
    obtain ⟨⟨hnext, hload⟩, hl⟩ := List.forall_mem_cons.mp hl
    exact ends_cons hnext fun m' hm' => ih hl m' ((hm'.resolve_left hload).trans hm)

/-- The body of the loop holds one loop test, its last line. -/
theorem pollBody_append (c : Params) (rest : List Item) :
    ∃ l, pollBody c ++ rest = l ++ .nextIteration :: rest ∧ ∀ it ∈ l, it ≠ .nextIteration ∧ it ≠ .loadCnt :=
  ⟨(pollPulses c).map .bus ++ [.retryIfBusy], by simp [pollBody], by simp [pollPulses]⟩

/-- The loop test runs the body again only with a smaller `CNT` (R97). -/
theorem ends_nextIteration {rest : List Item} (h : ∀ m, Ends m rest) (n : Nat) :
    ∀ m, m ≤ n → Ends m (.nextIteration :: rest) := by
  induction n with
  | zero =>
    intro m hm s op k fin hw hr hc hq
    have hleave : leavesLoop (decrementCnt s) = true := by
      simp [leavesLoop, decrementCnt, show s.cnt = 0 by omega]
    exact reachesFinish_of_tick hr (by simp [hq]) (tick_line hw hr hq)
      (h _ _ op k fin (by rwa [sequenceItem_cfg]) (by rwa [sequenceItem_rst]) le_rfl
        (by rw [sequenceItem, if_pos hleave]))
  | succ n ih =>
    intro m hm s op k fin hw hr hc hq
    refine reachesFinish_of_tick hr (by simp [hq]) (tick_line hw hr hq) ?_
    by_cases hleave : leavesLoop (decrementCnt s)
    · exact h _ _ op k fin (by rwa [sequenceItem_cfg]) (by rwa [sequenceItem_rst]) le_rfl
        (by rw [sequenceItem, if_pos hleave])
    · obtain ⟨l, hbody, hl⟩ := pollBody_append s.cfg rest
      have hcnt : (sequenceItem .nextIteration op k rest fin s).cnt ≤ n :=
        (sequenceItem_cnt .nextIteration op k rest fin s).trans_le (Nat.sub_le_of_le_add (hc.trans hm))
      exact ends_append ih l hl n le_rfl _ op k fin (by rwa [sequenceItem_cfg]) (by rwa [sequenceItem_rst]) hcnt
        (by rw [sequenceItem, if_neg hleave, ← hbody])

theorem ends (rest : List Item) : ∀ n, Ends n rest := by
  induction rest with
  | nil => exact ends_nil
  | cons it rest ih =>
    intro n
    by_cases hit : it = .nextIteration
    · subst hit
      exact ends_nextIteration ih n n le_rfl
    · exact ends_cons hit fun m _ => ih m

/-- R180: a running operation reaches its completion. -/
theorem reachesFinish {s : State} (hw : s.cfg.wf = true) (hr : s.rst = false) : ReachesFinish s := by
  cases hq : s.seq with
  | idle => exact reachesFinish_idle hq
  | run op k rest fin => exact ends rest s.cnt s op k fin hw hr le_rfl hq

/-! ### A step is its events -/

section Accepted

variable {s : State} (hw : s.cfg.wf = true)
include hw

theorem step_reset (hr : s.rst = true) : step s = .next (applyReset s) := by
  rw [step, if_pos hw, if_pos hr]

theorem step_wait (hr : s.rst = false) (hq : s.seq = .idle) (hl : s.requests = []) : step s = .next s := by
  rw [step, if_pos hw, hr, hq, hl]; rfl

/-- A step of a busy CORE finishes its operation. -/
theorem step_busy (hr : s.rst = false) (hq : s.seq ≠ .idle) : step s = .next (finish s) := by
  rw [step, if_pos hw, hr]
  cases h : s.seq with
  | idle => exact absurd h hq
  | run op k rest fin => rfl

/-- A step of an idle CORE with a request presented is that request's operation. -/
theorem step_request {w : Request} {ws : List Request} (hr : s.rst = false) (hq : s.seq = .idle)
    (hl : s.requests = w :: ws) : step s = exec (decode w) { s with requests := ws } := by
  rw [step, if_pos hw, hr, hq, hl]; rfl

/-- It finishes what the acceptance event starts. -/
theorem step_accept {w : Request} {ws : List Request} (hr : s.rst = false) (hq : s.seq = .idle)
    (hl : s.requests = w :: ws) :
    step s = .next (finish (accept (ruleOf (decode w) s) { s with requests := ws })) := by
  have hidle : finish { s with requests := ws } = { s with requests := ws } := finish_idle hq
  rw [step_request hw hr hq hl, exec_next (s := { s with requests := ws }) hw, hidle, ruleOf_requests]

end Accepted

/-- Settles O40: the events of a running operation, for a request after the event of its acceptance. -/
theorem stepIsTheEventsUpToCompletion : Obligations.StepIsTheEventsUpToCompletion := by
  intro s t hr hs ht
  have hw := step_wf ht
  by_cases hq : s.seq = .idle
  · obtain ⟨w, ws, hl⟩ := List.exists_cons_of_ne_nil (hs.resolve_left (absurd hq))
    have hacc := tick_accept hw hr hq hl
    rw [step_accept hw hr hq hl] at ht
    cases ht
    obtain ⟨n, hn, busy⟩ := reachesFinish (s := accept (ruleOf (decode w) s) { s with requests := ws }) hw hr
    refine ⟨n + 1, Nat.succ_pos n, by rw [ticks_succ_of_tick hacc, hn], finish_seq _, fun m u h0 hm hu => ?_⟩
    obtain ⟨m, rfl⟩ := Nat.exists_eq_succ_of_ne_zero h0.ne'
    exact busy m u (by omega) (by rwa [Nat.succ_eq_add_one, ticks_succ_of_tick hacc] at hu)
  · rw [step_busy hw hr hq] at ht
    cases ht
    obtain ⟨n, hn, busy⟩ := reachesFinish hw hr
    refine ⟨n, Nat.pos_of_ne_zero ?_, hn, finish_seq s, fun m u _ => busy m u⟩
    rintro rfl
    exact hq ((congrArg State.seq (Host.Outcome.next.inj hn)).trans (finish_seq s))

/-- Settles O33: a step is a reset event, a wait, or the events up to a completion, and each event keeps the invariant. -/
theorem stepKeepsTheInvariant : Obligations.StepKeepsTheInvariant := by
  intro s t h ht
  have hw := h.cfg
  cases hr : s.rst with
  | true =>
    rw [step_reset hw hr] at ht
    cases ht
    exact applyReset_inv h
  | false =>
    by_cases hwait : s.seq = .idle ∧ s.requests = []
    · rw [step_wait hw hr hwait.1 hwait.2] at ht
      cases ht
      exact h
    · obtain ⟨n, -, hn, -, -⟩ := stepIsTheEventsUpToCompletion s t hr (not_and_or.mp hwait) ht
      exact ticks_keep tickKeepsTheInvariant n s t h hn

/-- Settles O32, field by field; the reset state is idle, so it is itself the state its operation completes in. -/
theorem resetStateMeetsTheInvariant : Obligations.ResetStateMeetsTheInvariant where
  cfg := by decide
  port := by decide
  counter := by decide
  delays := rfl
  unanswered h := absurd rfl h
  settled := ⟨rfl, rfl, rfl⟩

end Sys2Proof.Machine
end

section
/-! SUPPORT. The environment's move (R24), and what cannot matter to an operation: for O44 to O48 a relation between two
states that no action of the CORE can break (`Kept`), from the two acceptances to the two completions (`Kept.exec`). -/

namespace Sys2Proof.Machine

open Sys2Proof.Safety

theorem envMove_eq (s : State) :
    envMove s = { s with foreign := s.foreign.tail, portOut := (envMove s).portOut } := by
  unfold envMove
  split
  next h =>
    have htail : s.foreign.tail = s.foreign := by rw [h]; rfl
    rw [htail]
  next h => rw [h]; rfl
  next h => rw [h]; rfl

/-- Settles O9: the laws of `envMove` and `perform_foreignBits`. -/
theorem foreignBitsAreTheEnvironments : Obligations.ForeignBitsAreTheEnvironments := by
  intro x s
  refine ⟨envMove_eq s, envMove_dataOut s, ?_, perform_foreignBits x s⟩
  rw [envMove_foreignBits]
  cases s.foreign with
  | nil => rfl
  | cons m ms => cases m <;> rfl

/-! ### Two operations side by side -/

/-- Two operations with the same items and completion flags, accepted in related states, complete from related states. -/
theorem Kept.exec {R : State → State → Prop} (k : Kept R) {i j : Instr} {s u : State} (hw : s.cfg.wf = true)
    (hs : s.seq = .idle) (hu : u.seq = .idle) (items : (ruleOf j u).items = (ruleOf i s).items)
    (fin : (ruleOf j u).fin = (ruleOf i s).fin) (h : R (accept (ruleOf i s) s) (accept (ruleOf j u) u)) :
    ∃ t v, exec i s = .next (complete (ruleOf i s).fin t) ∧ exec j u = .next (complete (ruleOf i s).fin v) ∧ R t v := by
  have hcfg : (accept (ruleOf j u) u).cfg = (accept (ruleOf i s) s).cfg := k.cfg h
  rw [accept_cfg, accept_cfg] at hcfg
  refine ⟨_, _, exec_idle i s hw hs, ?_, k.runItems (ruleOf i s).items h⟩
  rw [exec_idle j u (by rwa [hcfg]) hu, items, fin]

/-! ### The foreign bits -/

/-- The same state but for the port word, whose data field is the same. -/
structure SameButForeignBits (s u : State) : Prop where
  wf : s.cfg.wf = true
  eq : u = { s with portOut := u.portOut }
  data : u.dataOut = s.dataOut

theorem perform_withPortOut (x : BusStep) (s : State) (p : Nat) :
    perform x { s with portOut := p } = { perform x s with portOut := (perform x { s with portOut := p }).portOut } := by
  cases x <;> simp [perform, busEffect, busToken, record, envMove, State.answer] <;> split <;> simp

theorem kept_foreignBits : Kept SameButForeignBits where
  cfg h := by rw [h.eq]
  flag h := by rw [h.eq]
  cnt h := by rw [h.eq]
  bus {s u} x h := by
    have hcfg : u.cfg = s.cfg := by rw [h.eq]
    refine ⟨by simpa using h.wf, ?_, ?_⟩
    · rw [h.eq]
      exact perform_withPortOut x s u.portOut
    · rw [perform_dataOut x s h.wf, perform_dataOut x u (by rw [hcfg]; exact h.wf), h.data]
  setCnt n h := ⟨h.wf, by rw [h.eq], h.data⟩
  record c h := ⟨h.wf, by rw [h.eq]; rfl, h.data⟩
  setInitialized h := ⟨h.wf, by rw [h.eq], h.data⟩

/-- Settles O44: `changeForeignBits` gives a state that is the same but for the foreign bits, and so it stays. -/
theorem foreignBitsNeverMatter : Obligations.ForeignBitsNeverMatter := by
  intro i s w hw hi
  have hrule : ruleOf i (s.changeForeignBits w) = ruleOf i s := by cases i <;> rfl
  obtain ⟨t, u, ht, hu, h⟩ := kept_foreignBits.exec (i := i) (j := i) (u := s.changeForeignBits w) hw hi hi
    (by rw [hrule]) (by rw [hrule]) ⟨hw, by rw [hrule]; rfl, dataField_mergeForeign _ _⟩
  exact ⟨_, _, ht, hu, by rw [h.eq]; rfl, h.data⟩

/-! ### The latches and the session flags -/

/-- No bus step reads or writes a latch or a session flag. -/
theorem perform_withUnread (x : BusStep) (s : State) (a b : Byte) (initialized enabled : Bool) :
    perform x { s with a := a, b := b, initialized := initialized, enabled := enabled } =
      { perform x s with a := a, b := b, initialized := initialized, enabled := enabled } := by
  cases x <;> simp [perform, busEffect, busToken, record, envMove, State.answer] <;> split <;> simp

/-- The same state but for the latches and the session flags, of which those asked for are the same too. -/
structure SameButUnread (sameLatches sameInitialized sameEnabled : Prop) (s u : State) : Prop where
  eq : u = { s with a := u.a, b := u.b, initialized := u.initialized, enabled := u.enabled }
  latches : sameLatches → u.a = s.a ∧ u.b = s.b
  initialized : sameInitialized → u.initialized = s.initialized
  enabled : sameEnabled → u.enabled = s.enabled

theorem kept_unread (sameLatches sameInitialized sameEnabled : Prop) :
    Kept (SameButUnread sameLatches sameInitialized sameEnabled) where
  cfg h := by rw [h.eq]
  flag h := by rw [h.eq]
  cnt h := by rw [h.eq]
  bus {s u} x h := by
    refine ⟨?_, by simpa using h.latches, by simpa using h.initialized, by simpa using h.enabled⟩
    rw [h.eq]
    simpa using perform_withUnread x s u.a u.b u.initialized u.enabled
  setCnt n h := ⟨by rw [h.eq], h.latches, h.initialized, h.enabled⟩
  record c h := ⟨by rw [h.eq]; rfl, h.latches, h.initialized, h.enabled⟩
  setInitialized h := ⟨by rw [h.eq], h.latches, fun _ => rfl, h.enabled⟩

theorem SameButUnread.eq_initialized {s u : State} (h : SameButUnread True False True s u) :
    u = { s with initialized := u.initialized } := by
  have heq := h.eq
  rwa [(h.latches trivial).1, (h.latches trivial).2, h.enabled trivial] at heq

theorem SameButUnread.eq_latches {s u : State} (h : SameButUnread False True True s u) :
    u = { s with a := u.a, b := u.b } := by
  have heq := h.eq
  rwa [h.initialized trivial, h.enabled trivial] at heq

theorem SameButUnread.eq_enabled {s u : State} (h : SameButUnread True True False s u) :
    u = { s with enabled := u.enabled } := by
  have heq := h.eq
  rwa [(h.latches trivial).1, (h.latches trivial).2, h.initialized trivial] at heq

/-- Settles O46: START is the only operation whose rule depends on `INITIALIZED`. -/
theorem onlyStartReadsInitialized : Obligations.OnlyStartReadsInitialized := by
  intro i s v hw hi hstart
  have hrule : ruleOf i { s with initialized := v } = ruleOf i s := by
    cases i with
    | start a b => cases hstart
    | _ => rfl
  obtain ⟨t, u, ht, hu, h⟩ := (kept_unread True False True).exec (i := i) (j := i) (u := { s with initialized := v })
    hw hi hi (by rw [hrule]) (by rw [hrule])
    (by rw [hrule]; exact ⟨rfl, fun _ => ⟨rfl, rfl⟩, False.elim, fun _ => rfl⟩)
  exact ⟨_, _, ht, hu, by rw [h.eq_initialized]; rfl⟩

/-- Two instructions whose rules are the same but for the operands. -/
theorem exec_sameButLatches {i j : Instr} {s : State} (hw : s.cfg.wf = true) (hi : s.seq = .idle)
    (h : ruleOf j s = { ruleOf i s with a := (ruleOf j s).a, b := (ruleOf j s).b }) :
    ∃ t u, exec i s = .next t ∧ exec j s = .next u ∧ u = { t with a := u.a, b := u.b } := by
  obtain ⟨t, u, ht, hu, hR⟩ := (kept_unread False True True).exec (i := i) (j := j) (u := s) hw hi hi
    (by rw [h]) (by rw [h]) (by rw [h]; exact ⟨rfl, False.elim, fun _ => rfl, fun _ => rfl⟩)
  exact ⟨_, _, ht, hu, by rw [hR.eq_latches]; rfl⟩

/-- Settles O48: none of these rules mentions the operand, or only its low nibble. -/
theorem unusedOperandBitsHaveNoEffect : Obligations.UnusedOperandBitsHaveNoEffect := by
  intro s a b a' b' hw hi
  refine ⟨?_, ?_, ?_, ?_, ?_, ?_, ?_, ?_, ?_, ?_, ?_, ?_, ?_, fun hlow => ⟨?_, ?_⟩⟩
  case refine_14 => exact exec_sameButLatches hw hi (by simp only [ruleOf, ruleWrnibc, nibbleOperand, hlow])
  case refine_15 => exact exec_sameButLatches hw hi (by simp only [ruleOf, ruleWrnibd, nibbleOperand, hlow])
  all_goals exact exec_sameButLatches hw hi rfl

/-! ### `FLAG` and `CNT` left by an earlier poll -/

/-- The lines that neither read nor write `FLAG` and `CNT`: those that stand outside a poll. -/
def outsidePoll : Item → Bool
  | .bus .sample | .loadCnt | .retryIfBusy | .nextIteration | .outcome => false
  | .bus _ | .setInitialized | .badRow | .illegal => true

/-- `s` with other values in `FLAG` and `CNT`. -/
def withPollState (flag : Bool) (cnt : Nat) (s : State) : State := { s with flag := flag, cnt := cnt }

theorem perform_withPollState {x : BusStep} (hx : x ≠ .sample) (flag : Bool) (cnt : Nat) (s : State) :
    perform x (withPollState flag cnt s) = withPollState flag cnt (perform x s) := by
  cases x <;> simp [withPollState, perform, busEffect, busToken, record, envMove] at hx ⊢ <;> split <;> simp

theorem perform_sample_withPollState (flag : Bool) (cnt : Nat) (s : State) :
    perform .sample (withPollState flag cnt s) = withPollState (perform .sample s).flag cnt (perform .sample s) := by
  simp [withPollState, perform, busEffect, busToken, record, envMove, State.answer]
  split <;> simp

theorem runItem_outsidePoll {it : Item} (h : outsidePoll it = true) (flag : Bool) (cnt : Nat) (s : State) :
    runItem it (withPollState flag cnt s) = withPollState flag cnt (runItem it s) := by
  cases it with
  | bus x => exact perform_withPollState (by rintro rfl; cases h) flag cnt s
  | setInitialized => rfl
  | badRow => rfl
  | illegal => rfl
  | _ => cases h

theorem runItems_outsidePoll (flag : Bool) (cnt : Nat) (l : List Item) (h : l.all outsidePoll = true) : ∀ s : State,
    runItems l (withPollState flag cnt s) = withPollState flag cnt (runItems l s) := by
  induction l with
  | nil => exact fun _ => rfl
  | cons it l ih =>
    intro s
    rw [List.all_cons, Bool.and_eq_true] at h
    rw [runItems_cons, runItem_outsidePoll h.1, ih h.2, runItems_cons]

theorem runItems_outsidePoll_cnt {l : List Item} (h : l.all outsidePoll = true) (s : State) :
    (runItems l s).cnt = s.cnt := by
  have hkeep := runItems_outsidePoll s.flag s.cnt l h s
  exact (congrArg State.cnt hkeep :)

/-- Once `CNT` has been loaded and a sample taken, their earlier values are forgotten. -/
theorem runItems_loadThenSample {start pulse : List Item} (hstart : start.all outsidePoll = true)
    (hpulse : pulse.all outsidePoll = true) (rest : List Item) (flag : Bool) (cnt : Nat) (s : State) :
    runItems (start ++ .loadCnt :: (pulse ++ .bus .sample :: rest)) (withPollState flag cnt s) =
      runItems (start ++ .loadCnt :: (pulse ++ .bus .sample :: rest)) s := by
  have hload (u : State) : runItem .loadCnt (withPollState flag cnt u) =
      withPollState flag (runItem .loadCnt u).cnt (runItem .loadCnt u) := rfl
  have hsample (u : State) : runItem (.bus .sample) (withPollState flag u.cnt u) = runItem (.bus .sample) u := by
    rw [runItem, perform_sample_withPollState, ← perform_cnt .sample u]
    rfl
  simp only [runItems_append, runItems_cons, runItems_outsidePoll _ _ start hstart, hload]
  rw [runItems_outsidePoll _ _ pulse hpulse, ← runItems_outsidePoll_cnt hpulse, hsample]

/-- R91 steps 1 to 4. -/
def beforeLoad : List Item :=
  [Item.bus (.writeNibble 0), Item.bus (.setDir .input), Item.bus (.setRS false), Item.bus (.setRW true)]

/-- R91 steps 6a and 6b. -/
def beforeSample (c : Params) : List Item := [Item.bus (.setE true), Item.bus (.delayUs c.tPollSetupUs)]

/-- R91 from step 6d on. -/
def afterSample (c : Params) : List Item :=
  ((pollPulses c).drop 3).map Item.bus ++
    [Item.retryIfBusy, Item.nextIteration, Item.bus (.setRW false), Item.bus (.setDir .output), Item.outcome]

theorem pollItems_eq (c : Params) :
    pollItems c = beforeLoad ++ Item.loadCnt :: (beforeSample c ++ Item.bus .sample :: afterSample c) := by
  simp [pollItems, pollBody, pollPulses, beforeLoad, beforeSample, afterSample]

/-- A poll loads `CNT` and samples before it reads either (R91). -/
theorem runItems_pollItems_forgets (c : Params) (flag : Bool) (cnt : Nat) (s : State) :
    runItems (pollItems c) (withPollState flag cnt s) = runItems (pollItems c) s := by
  rw [pollItems_eq, runItems_loadThenSample rfl rfl]

/-- The items reach a poll with lines before it that neither read nor write `FLAG` and `CNT`. -/
def PollsFirst (c : Params) (items : List Item) : Prop :=
  ∃ before after, items = before ++ (pollItems c ++ after) ∧ before.all outsidePoll = true

theorem runItems_pollsFirst {c : Params} {l : List Item} (h : PollsFirst c l) (flag : Bool) (cnt : Nat) (s : State) :
    runItems l (withPollState flag cnt s) = runItems l s := by
  obtain ⟨before, after, rfl, hbefore⟩ := h
  simp only [runItems_append, runItems_outsidePoll _ _ before hbefore, runItems_pollItems_forgets]

theorem pollsFirst_append {c : Params} {l : List Item} (h : PollsFirst c l) (m : List Item) : PollsFirst c (l ++ m) := by
  obtain ⟨before, after, rfl, hbefore⟩ := h
  exact ⟨before, after ++ m, by simp only [List.append_assoc], hbefore⟩

theorem pollsFirst_pollItems (c : Params) : PollsFirst c (pollItems c) := ⟨[], [], by simp, rfl⟩

theorem pollsFirst_writeByte (c : Params) (rs : Bool) (b : Byte) : PollsFirst c (writeByte c rs b) :=
  pollsFirst_append (pollsFirst_append (pollsFirst_pollItems c) _) _

theorem transfer_outsidePoll (rs : Bool) (n : Nibble) : (transfer rs n).all outsidePoll = true := rfl

theorem pollsFirst_initSequence (c : Params) : PollsFirst c (initSequence c) := by
  have hmode : (modeSelect c).all outsidePoll = true := by
    simp only [modeSelect, List.all_append, transfer_outsidePoll, List.all_cons, List.all_nil, outsidePoll, Bool.and_self]
  obtain ⟨before, after, hbytes, hbefore⟩ : PollsFirst c ((initBytes c).flatMap (writeByte c false)) :=
    pollsFirst_append (pollsFirst_writeByte c false c.cmdEntryInc) _
  refine ⟨modeSelect c ++ before, after, ?_, by rw [List.all_append, hmode, hbefore, Bool.and_self]⟩
  rw [initSequence, hbytes, List.append_assoc]

/-- Every operation that polls does so before it reads `FLAG` or `CNT`. -/
theorem ruleOf_pollsFirst {i : Instr} (h : polls i = true) (s : State) : PollsFirst s.cfg (ruleOf i s).items := by
  cases i with
  | init a b => exact pollsFirst_initSequence s.cfg
  | start a b =>
    simp only [ruleOf, ruleStart]
    split
    · exact pollsFirst_writeByte _ _ _
    · exact pollsFirst_append (pollsFirst_append (pollsFirst_initSequence s.cfg) _) _
  | setpos a b =>
    rw [polls_setpos] at h
    obtain ⟨cmd, hcmd⟩ := Option.isSome_iff_exists.mp h
    rw [ruleOf, ruleSetpos_items_some hcmd]
    exact pollsFirst_writeByte _ _ _
  | enable a b => exact pollsFirst_writeByte _ _ _
  | wrcmd a b => exact pollsFirst_writeByte _ _ _
  | wrdata a b => exact pollsFirst_writeByte _ _ _
  | poll a b => exact pollsFirst_pollItems _
  | _ => cases h

theorem ruleOf_outsidePoll {i : Instr} (h : polls i = false) (s : State) : (ruleOf i s).items.all outsidePoll = true := by
  cases i with
  | setpos a b =>
    rw [polls_setpos, Option.isSome_eq_false_iff, Option.isNone_iff_eq_none] at h
    rw [ruleOf, ruleSetpos_items_none h]
    rfl
  | wrnibc a b => exact transfer_outsidePoll _ _
  | wrnibd a b => exact transfer_outsidePoll _ _
  | nop a b => rfl
  | reserved7 a b => rfl
  | reservedB a b => rfl
  | reservedC a b => rfl
  | reservedD a b => rfl
  | reservedE a b => rfl
  | reservedF a b => rfl
  | _ => cases h

/-- Settles O45: no line reads `ENABLED`; an operation that polls forgets `FLAG` and `CNT` there, every other keeps them. -/
theorem leftoverFlagCounterAndEnabledNeverMatter : Obligations.LeftoverFlagCounterAndEnabledNeverMatter := by
  intro i s enabled flag cnt hw hi
  have hrule : ruleOf i { s with enabled := enabled, flag := flag, cnt := cnt } = ruleOf i s := by cases i <;> rfl
  have ht := exec_idle i s hw hi
  have hu := exec_idle i { s with enabled := enabled, flag := flag, cnt := cnt } hw hi
  rw [hrule] at hu
  have haccept : accept (ruleOf i s) { s with enabled := enabled, flag := flag, cnt := cnt } =
      withPollState flag cnt (accept (ruleOf i s) { s with enabled := enabled }) := rfl
  have henabled := ((kept_unread True True False).runItems (ruleOf i s).items (s := accept (ruleOf i s) s)
    (u := accept (ruleOf i s) { s with enabled := enabled })
    ⟨rfl, fun _ => ⟨rfl, rfl⟩, fun _ => rfl, False.elim⟩).eq_enabled
  rw [haccept] at hu
  refine ⟨_, _, ht, hu, ?_⟩
  cases hp : polls i with
  | true =>
    rw [runItems_pollsFirst (ruleOf_pollsFirst hp s), henabled]
    exact ⟨rfl, fun _ => ⟨rfl, rfl⟩⟩
  | false =>
    rw [runItems_outsidePoll _ _ _ (ruleOf_outsidePoll hp s), henabled]
    exact ⟨rfl, fun h => absurd h Bool.false_ne_true⟩

/-! ### The bits of a sample other than the busy flag -/

/-- The same state but for the port words to come, which read busy alike, and the other bits of those read. -/
structure SameButSampleBits (s u : State) : Prop where
  eq : u = { s with trace := u.trace, portIn := u.portIn }
  busy : ∀ i, busyAt u i = busyAt s i
  trace : u.trace.map onlyFlag = s.trace.map onlyFlag

theorem perform_withObservation (x : BusStep) {s u : State} (h : u = { s with trace := u.trace, portIn := u.portIn }) :
    perform x u = { perform x s with
      trace := (perform x u).trace, portIn := (perform x u).portIn, flag := (perform x u).flag } := by
  rw [h]
  cases x <;> simp [perform, busEffect, record, envMove] <;> split <;> simp

/-- Of a sample the token keeps, and `FLAG` takes, the busy flag (R76). -/
theorem onlyFlag_busToken {s u : State} (h : busyAt u 0 = busyAt s 0) (x : BusStep) :
    onlyFlag (busToken x u) = onlyFlag (busToken x s) := by
  cases x with
  | sample =>
    rw [← nibbleAt_busy, ← nibbleAt_busy] at h
    exact congrArg (fun busy : Bool => Token.s (if busy then 0x8 else 0x0)) h
  | _ => rfl

theorem perform_flag_congr {s u : State} (hflag : u.flag = s.flag) (h : busyAt u 0 = busyAt s 0) (x : BusStep) :
    (perform x u).flag = (perform x s).flag := by
  rw [perform_flag, perform_flag, busyOf_answer, busyOf_answer, h, hflag]

theorem kept_sampleBits : Kept SameButSampleBits where
  cfg h := by rw [h.eq]
  flag h := by rw [h.eq]
  cnt h := by rw [h.eq]
  bus {s u} x h := by
    have hflag : (perform x u).flag = (perform x s).flag := perform_flag_congr (by rw [h.eq]) (h.busy 0) x
    have hu := perform_withObservation x h.eq
    rw [hflag] at hu
    refine ⟨hu, fun i => ?_, ?_⟩
    · rw [(perform_ran x u).busyAt, (perform_ran x s).busyAt, h.busy]
    · simp only [perform_trace, List.map_append, List.map_cons, List.map_nil, h.trace, onlyFlag_busToken (h.busy 0)]
  setCnt n h := ⟨by rw [h.eq], h.busy, h.trace⟩
  record c h := ⟨by rw [h.eq]; rfl, h.busy, h.trace⟩
  setInitialized h := ⟨by rw [h.eq], h.busy, h.trace⟩

/-- Settles O47: the rule is chosen without the port words, and they are then read only for their busy flags. -/
theorem onlyTheBusyBitOfSamplesMatters : Obligations.OnlyTheBusyBitOfSamplesMatters := by
  intro i s other hw hi _ hbusy
  have hrule : ruleOf i { s with portIn := other } = ruleOf i s := by cases i <;> rfl
  obtain ⟨t, u, ht, hu, h⟩ := kept_sampleBits.exec (i := i) (j := i) (u := { s with portIn := other }) hw hi hi
    (by rw [hrule]) (by rw [hrule]) ⟨by rw [hrule]; rfl, hbusy, rfl⟩
  exact ⟨_, _, ht, hu, by rw [h.eq]; rfl, h.trace⟩

end Sys2Proof.Machine
end

section
/-! SUPPORT. How a byte is cut into nibbles (R36), and what an operation does not see of the host (R43): no event of a running
operation reads the requests presented (`tick_withRequests`), nor does its run to the completion (`finish_withRequests`). -/

namespace Sys2Proof.Machine

/-! ### The two nibbles of a byte -/

/-- The nibbles do not overlap, so the `or` of R36 is a concatenation. -/
theorem rejoin_eq_append (high low : Nibble) : rejoin high low = high ++ low := by
  rw [rejoin, BitVec.append_def, BitVec.shiftLeftZeroExtend_eq, BitVec.setWidth'_eq]

/-- Settles O10: adjacent slices of a byte concatenate to the byte. -/
theorem nibbleSplitRejoins : Obligations.NibbleSplitRejoins :=
  fun b => ⟨rfl, rfl, (rejoin_eq_append (highNibble b) (lowNibble b)).trans BitVec.extractLsb'_append_extractLsb'⟩

/-! ### The requests presented -/

/-- `s` with other requests presented. -/
def withRequests (rs : List Request) (s : State) : State := { s with requests := rs }

/-- No item reads or writes the requests presented. -/
theorem kept_withRequests (rs : List Request) : Kept fun s u => u = withRequests rs s where
  cfg h := by rw [h]; rfl
  flag h := by rw [h]; rfl
  cnt h := by rw [h]; rfl
  bus x h := by
    rw [h]
    cases x <;> simp [withRequests, perform, busEffect, busToken, Machine.record, envMove, State.answer] <;> split <;> simp
  setCnt n h := by rw [h]; rfl
  record c h := by rw [h]; rfl
  setInitialized h := by rw [h]; rfl

/-- A line is its item and a new position, except the loop test, which looks at `FLAG` and `CNT` alone. -/
theorem sequenceItem_withRequests (rs : List Request) (it : Item) (op : Nibble) (k : Nat) (rest : List Item)
    (fin : AtCompletion) (s : State) :
    sequenceItem it op k rest fin (withRequests rs s) = withRequests rs (sequenceItem it op k rest fin s) := by
  have hitem : runItem it (withRequests rs s) = withRequests rs (runItem it s) := (kept_withRequests rs).runItem it rfl
  have hseq (q : Seq) : { runItem it (withRequests rs s) with seq := q } =
      withRequests rs { runItem it s with seq := q } := by rw [hitem]; rfl
  cases it with
  | nextIteration =>
    have hleave : leavesLoop (decrementCnt (withRequests rs s)) = leavesLoop (decrementCnt s) := rfl
    simp only [sequenceItem, hleave]
    split <;> rfl
  | bus x => exact hseq _
  | retryIfBusy => exact hseq _
  | loadCnt => exact hseq _
  | outcome => exact hseq _
  | setInitialized => exact hseq _
  | badRow => exact hseq _
  | illegal => exact hseq _

/-- The run to the completion of the operation in progress. -/
theorem finish_withRequests (rs : List Request) (s : State) :
    finish (withRequests rs s) = withRequests rs (finish s) := by
  cases hq : s.seq with
  | idle => rw [finish_idle hq, finish_idle (s := withRequests rs s) hq]
  | run op k rest fin =>
    have hitems := (kept_withRequests rs).runItems rest (s := s) rfl
    rw [finish_run hq, finish_run (s := withRequests rs s) hq, hitems]
    rfl

/-- One event of a running operation: its completion or a line of its rule. -/
theorem tick_withRequests {s t : State} (hr : s.rst = false) (hq : s.seq ≠ .idle) (ht : tick s = .next t)
    (rs : List Request) : tick (withRequests rs s) = .next (withRequests rs t) := by
  have hw := tick_wf ht
  cases h : s.seq with
  | idle => exact absurd h hq
  | run op k rest fin =>
    cases rest with
    | nil =>
      rw [tick_complete hw hr h] at ht
      cases ht
      exact tick_complete (s := withRequests rs s) hw hr h
    | cons it rest =>
      rw [tick_line hw hr h] at ht
      cases ht
      rw [tick_line (s := withRequests rs s) hw hr h, sequenceItem_withRequests]

/-- Settles O49: the next event and the run to the completion carry the requests along unread. -/
theorem requestLinesAreNotSeenWhileBusy : Obligations.RequestLinesAreNotSeenWhileBusy := by
  intro s rs hw hr hq
  obtain ⟨t, ht⟩ := tick_answers hw
  have hstep : step (withRequests rs s) = .next (withRequests rs (finish s)) := by
    rw [step_busy (s := withRequests rs s) hw hr hq, finish_withRequests]
  exact ⟨t, finish s, ht, step_busy hw hr hq, tick_withRequests hr hq ht rs, hstep⟩

end Sys2Proof.Machine
end

section
/-! SUPPORT. The request word (R51, R54, R56): `ofFields` and the fields of an instruction are inverse to each other,
what O2 to O4 rest on; what follows from it for acceptance (R52), and the reserved codes (R56). -/

namespace Sys2Proof

/-- Each row of the table is found again under its operation code. -/
theorem ofFields_of_fields (i : Instr) : ofFields i.opcode i.fieldA i.fieldB = i := by
  cases i <;> rfl

/-- In each row the constructor found has the code looked up; in the last row because 15 is the only code left. -/
theorem ofFields_opcode (op : Nibble) (a b : Byte) : (ofFields op a b).opcode = op := by
  unfold ofFields
  split
  case h_16 =>
    have hlt : op.toNat < 16 := op.isLt
    refine BitVec.eq_of_toNat_eq (show 15 = op.toNat from ?_)
    simp only [imp_false] at *
    omega
  all_goals
    rename_i h
    exact BitVec.eq_of_toNat_eq h.symm

theorem ofFields_operands (op : Nibble) (a b : Byte) : (ofFields op a b).fieldA = a ∧ (ofFields op a b).fieldB = b := by
  unfold ofFields
  split <;> exact ⟨rfl, rfl⟩

/-- The three slices of a request word put together again (R51). -/
theorem append_slices (w : Request) :
    w.extractLsb' 16 4 ++ (w.extractLsb' 8 8 ++ w.extractLsb' 0 8) = w := by
  have operands : w.extractLsb' 8 8 ++ w.extractLsb' 0 8 = w.extractLsb' 0 16 :=
    BitVec.extractLsb'_append_extractLsb'_eq_extractLsb' rfl
  rw [operands]
  exact BitVec.extractLsb'_append_extractLsb' (w := 4) (len := 16)

/-- Settles O3: `decode` looks up the slices of the word. -/
theorem decodeReadsTheRequestFields : Obligations.DecodeReadsTheRequestFields :=
  fun _ => ⟨ofFields_opcode .., ofFields_operands ..⟩

theorem decode_encode (i : Instr) : decode (encode i) = i := by
  obtain ⟨hop, ha, hb⟩ := Laws.request_fields i.opcode i.fieldA i.fieldB
  rw [decode, encode, hop, ha, hb, ofFields_of_fields]

theorem encode_decode (w : Request) : encode (decode w) = w := by
  obtain ⟨hop, ha, hb⟩ := decodeReadsTheRequestFields w
  rw [encode, hop, ha, hb, append_slices]

/-- Settles O2: the slices of a concatenation are its parts, and `ofFields` is the inverse of the fields. -/
theorem decodeAndEncodeAgree : Obligations.DecodeAndEncodeAgree := ⟨decode_encode, encode_decode⟩

theorem isReserved_iff_opcode (i : Instr) : i.isReserved = true ↔ i.opcode = 0x7 ∨ 0xB ≤ i.opcode := by
  cases i <;> simp [Instr.isReserved, Instr.opcode]

/-- Settles O4: whether an instruction is reserved can be read off its operation code, which is a field of the word. -/
theorem reservedCodesAreSevenAndElevenUp : Obligations.ReservedCodesAreSevenAndElevenUp := by
  intro w
  rw [isReserved_iff_opcode, (decodeReadsTheRequestFields w).1]

/-- Settles O1: twelve words, each evaluated. -/
theorem requestWordsDecodeAsWritten : Obligations.RequestWordsDecodeAsWritten := by
  unfold Obligations.RequestWordsDecodeAsWritten
  decide

namespace Machine

/-- A rule latches the fields of its instruction (R52). -/
theorem ruleOf_fields (i : Instr) (s : State) :
    (ruleOf i s).op = i.opcode ∧ (ruleOf i s).a = i.fieldA ∧ (ruleOf i s).b = i.fieldB := by
  cases i <;> exact ⟨rfl, rfl, rfl⟩

/-- The six reserved codes have one rule (R56). -/
theorem ruleOf_reserved {i : Instr} (h : i.isReserved = true) (s : State) :
    ruleOf i s = reservedRule i.opcode i.fieldA i.fieldB := by
  cases i with
  | reserved7 a b => rfl
  | reservedB a b => rfl
  | reservedC a b => rfl
  | reservedD a b => rfl
  | reservedE a b => rfl
  | reservedF a b => rfl
  | _ => cases h

/-- Settles O24: acceptance, the one line of the reserved rule, completion. -/
theorem reservedCodesCompleteAsIllegal : Obligations.ReservedCodesCompleteAsIllegal := by
  intro i s hw hi hres
  rw [exec_idle i s hw hi, ruleOf_reserved hres]
  simp [reservedRule, accept, runItem, recordOutcome, Cause.bit, complete, setSession, AtCompletion.none, hi]

end Machine

end Sys2Proof
end

section
/-! SUPPORT. What the events of R52 and R53 do to the latches, the requests and STATUS (O35, O37, O38, O41), and the event of a
delay step (O43): whatever line of a rule stands behind the delay port, its event is one delay step (`delayRequest_line`). -/

namespace Sys2Proof.Machine

open Sys2Proof.Safety

/-- Settles O35: a refused configuration is refused by both. -/
theorem stepRunsTheDecodedRequest : Obligations.StepRunsTheDecodedRequest := by
  intro s w ws hr hq hl
  by_cases hw : s.cfg.wf = true
  · exact step_request hw hr hq hl
  · rw [step_refused hw, exec_refused (s := { s with requests := ws }) hw]

/-- Settles O41: `operate` runs the operation in progress to its end, and an idle state has none. -/
theorem busyRequestWaitsForCompletion : Obligations.BusyRequestWaitsForCompletion := by
  intro i s
  refine ⟨?_, finish_seq s⟩
  rw [exec_eq, exec_eq, operate, operate, finish_cfg, finish_idle (finish_seq s)]

/-! ### Acceptance and the hold -/

/-- No event of a running operation takes a request or writes a latch (R11, R52). -/
theorem tick_busy_latches {s t : State} (hr : s.rst = false) (hq : s.seq ≠ .idle) (ht : tick s = .next t) :
    t.requests = s.requests ∧ t.op = s.op ∧ t.a = s.a ∧ t.b = s.b := by
  have hw := tick_wf ht
  cases h : s.seq with
  | idle => exact absurd h hq
  | run op k rest fin =>
    cases rest with
    | nil =>
      rw [tick_complete hw hr h] at ht
      cases ht
      exact ⟨rfl, rfl, rfl, rfl⟩
    | cons it rest =>
      rw [tick_line hw hr h] at ht
      cases ht
      obtain ⟨_, _, _, _, ran, -, -⟩ := sequenceItem_shape it op k rest fin s
      exact ⟨ran.requests, ran.op, ran.a, ran.b⟩

/-- Nor does the run to the completion. -/
theorem finish_requests (s : State) : (finish s).requests = s.requests := by
  cases hq : s.seq with
  | idle => rw [finish_idle hq]
  | run op k rest fin =>
    obtain ⟨_, _, ran⟩ := runItems_ran rest s
    rw [finish_run hq, complete_requests, ran.requests]

/-- Settles O37: the acceptance event with the fields of the decoded word, and the events up to the completion. -/
theorem acceptanceLatchesAndBusyHolds : Obligations.AcceptanceLatchesAndBusyHolds := by
  intro s hw hr
  refine ⟨fun w ws hq hl => ?_, fun hq => ⟨?_, ?_⟩⟩
  · obtain ⟨ruleOp, ruleA, ruleB⟩ := ruleOf_fields (decode w) s
    obtain ⟨wordOp, wordA, wordB⟩ := decodeReadsTheRequestFields w
    refine ⟨(ruleOf (decode w) s).items, (ruleOf (decode w) s).fin, ?_⟩
    rw [tick_accept hw hr hq hl, accept, ruleOp, ruleA, ruleB, wordOp, wordA, wordB]
  · obtain ⟨t, ht⟩ := tick_answers hw
    exact ⟨t, ht, tick_busy_latches hr hq ht⟩
  · obtain ⟨n, hn, -⟩ := reachesFinish hw hr
    exact ⟨n, finish s, hn, finish_seq s, finish_requests s⟩

/-- Settles O38: the completion event; an idle CORE waits, or accepts and is idle no more. -/
theorem completionEventGivesTheResponse : Obligations.CompletionEventGivesTheResponse := by
  intro s hw hr
  refine ⟨fun op k fin hq => tick_complete hw hr hq, fun hq => ?_⟩
  cases hl : s.requests with
  | nil => exact ⟨s, tick_wait hw hr hq hl, fun _ => rfl⟩
  | cons w ws => exact ⟨_, tick_accept hw hr hq hl, fun hidle => nomatch hidle⟩

/-! ### The delay port -/

/-- The delay step of `n` units. -/
def DelayUnit.step : DelayUnit → Nat → BusStep
  | .microseconds, n => .delayUs n
  | .milliseconds, n => .delayMs n

/-- Every delay fits in the six bits of `dly_count` (R50). -/
theorem DelayUnit.le_of_inRange {unit : DelayUnit} {n : Nat} (h : delayInRange (.bus (unit.step n)) = true) :
    n ≤ 40 := by
  cases unit with
  | microseconds => exact (of_decide_eq_true h).trans (by decide)
  | milliseconds => exact of_decide_eq_true (Bool.and_eq_true_iff.mp h).2

/-- A delay step is the environment's move and its token. -/
theorem perform_delay (unit : DelayUnit) (n : Nat) (s : State) :
    perform (unit.step n) s = { envMove s with trace := s.trace ++ [busToken (unit.step n) s] } := by
  rw [← envMove_trace s]
  cases unit <;> rfl

/-- The delay port shows the count of the next line: a delay step, or the retry delay with `FLAG` set. -/
theorem delayRequest_line {s : State} {unit : DelayUnit} {count : BitVec 6} (h : CoreInv s)
    (hd : s.delayRequest = some (unit, count)) :
    ∃ n it op k rest fin, count = BitVec.ofNat 6 n ∧ delayInRange (.bus (unit.step n)) = true ∧
      s.seq = .run op k (it :: rest) fin ∧
      sequenceItem it op k rest fin s = { perform (unit.step n) s with seq := .run op (k + 1) rest fin } := by
  have hdelays := h.delays
  unfold State.delayRequest at hd
  split at hd
  next op k n rest fin hq =>
    cases hd
    rw [hq, pendingDelaysInRange, List.all_cons, Bool.and_eq_true] at hdelays
    exact ⟨n, _, op, k, rest, fin, rfl, hdelays.1, hq, rfl⟩
  next op k n rest fin hq =>
    cases hd
    rw [hq, pendingDelaysInRange, List.all_cons, Bool.and_eq_true] at hdelays
    exact ⟨n, _, op, k, rest, fin, rfl, hdelays.1, hq, rfl⟩
  next op k rest fin hq =>
    split at hd
    next hflag =>
      cases hd
      have hretry := ((Params.wf_iff_inParameterSpace s.cfg).mp h.cfg).tPollRetryUs
      refine ⟨s.cfg.tPollRetryUs, _, op, k, rest, fin, rfl, decide_eq_true hretry, hq, ?_⟩
      simp only [sequenceItem, retryDelay, if_pos hflag, DelayUnit.step]
    next => cases hd
  next => cases hd

/-- Settles O43: the line behind the port is one delay step, and its count is small enough for the six bits. -/
theorem delayPortShowsTheDelayStep : Obligations.DelayPortShowsTheDelayStep := by
  intro s unit count h hr hd
  obtain ⟨n, it, op, k, rest, fin, rfl, hrange, hq, hline⟩ := delayRequest_line h hd
  have hn : (BitVec.ofNat 6 n).toNat = n := Nat.mod_eq_of_lt ((DelayUnit.le_of_inRange hrange).trans_lt (by decide))
  refine ⟨_, tick_line h.cfg hr hq, ?_⟩
  rw [hline, perform_delay, hn]
  cases unit with
  | microseconds =>
    refine ⟨rfl, rfl, nofun, ?_⟩
    rw [BitVec.le_def, hn]
    exact of_decide_eq_true hrange
  | milliseconds =>
    obtain ⟨hlow, hhigh⟩ := Bool.and_eq_true_iff.mp hrange
    refine ⟨rfl, rfl, nofun, ?_, ?_⟩
    · rw [BitVec.le_def, hn]
      exact of_decide_eq_true hlow
    · rw [BitVec.le_def, hn]
      exact of_decide_eq_true hhigh

end Sys2Proof.Machine
end

section
/-! SUPPORT. The bus steps of 40_bus_steps.md one by one (O5 to O8): a bus step as one update of the state the environment's
move leaves, the port word bit by bit, and the pins. -/

namespace Sys2Proof.Machine

/-! ### One bus step as one update -/

/-- The environment's move shows in no token: a token holds the step's operand or the nibble answered (R8, R24). -/
@[simp] theorem busToken_envMove (x : BusStep) (s : State) : busToken x (envMove s) = busToken x s := by
  cases x with
  | sample => rw [busToken, busToken, envMove_cfg, envMove_answer]
  | _ => rfl

theorem busEffect_trace (x : BusStep) (s : State) : (busEffect x s).trace = s.trace := by cases x <;> rfl

/-- A bus step is its effect after the environment's move, and its token (R5, R24). -/
theorem perform_eq (x : BusStep) (s : State) :
    perform x s = { busEffect x (envMove s) with trace := s.trace ++ [busToken x s] } := by
  rw [perform, record, busToken_envMove, busEffect_trace, envMove_trace]

/-- Settles O5: the effect of each step is the update of its one line. -/
theorem controlLineStepsSetOneLine : Obligations.ControlLineStepsSetOneLine :=
  fun _ s => ⟨perform_eq _ s, perform_eq _ s, perform_eq _ s⟩

/-! ### The port word bit by bit, and the pins -/

/-- A bit of PORT_OUT after `PortWriteNibble(v)` (R32). -/
theorem portWriteNibble_testBit {c : Params} {i : Nat} (hi : i < c.portW) (p : Nat) (v : Nibble) :
    (portWriteNibble c p v).testBit i =
      if c.dataShift ≤ i ∧ i < c.dataShift + 4 then v.getLsbD (i - c.dataShift) else p.testBit i := by
  have hbit := portWriteNibble_getLsbD (c := c) p v i
  simpa only [BitVec.getLsbD_ofNat, hi, decide_true, Bool.true_and] using hbit

/-- `WriteNibble(v)` leaves `PortWriteNibble(v)` of the word the environment left (R73). -/
theorem perform_writeNibble_portOut (v : Nibble) (s : State) :
    (perform (.writeNibble v) s).portOut = portWriteNibble s.cfg (envMove s).portOut v := by
  rw [perform_eq, ← envMove_cfg s]
  rfl

/-- The pins take the data field exactly while they are outputs (R23). -/
theorem dataPins_eq (s : State) : s.dataPins = if s.dir = .output then some s.dataOut else none := by
  cases h : s.dir <;> simp [State.dataPins, h]

/-- Settles O6: the new word is `PortWriteNibble(v)` of the word found, whose bits and data field R32 gives. -/
theorem writeNibbleWritesOnlyTheDataField : Obligations.WriteNibbleWritesOnlyTheDataField := by
  intro v s hw
  have hfield : (perform (.writeNibble v) s).dataOut = v := perform_dataOut _ s hw
  refine ⟨perform_eq _ s, ?_, fun i hi => ?_, hfield, ?_⟩
  · rw [perform_writeNibble_portOut]
    exact portWriteNibble_lt _ _
  · rw [perform_writeNibble_portOut]
    exact portWriteNibble_testBit hi _ v
  · rw [dataPins_eq, hfield, perform_dir]

/-! ### The busy bit, the direction and the delays -/

/-- Settles O7: `FLAG` is line 3 of the nibble read, which is bit `BF_BIT` of the word answered. -/
theorem sampleSetsFlagToTheBusyBit : Obligations.SampleSetsFlagToTheBusyBit := by
  intro s
  rw [perform_eq, ← bfBit, ← busyOf_portReadNibble, ← envMove_answer s 0, ← envMove_cfg s, ← envMove_portIn s,
    ← envMove_draws s]
  rfl

/-- Settles O8: a change of direction leaves the latched data field, so that the pins show it at once. -/
theorem directionAndDelaySteps : Obligations.DirectionAndDelaySteps := by
  intro s
  have hdir (d : Dir) : perform (.setDir d) s = { envMove s with dir := d, trace := s.trace ++ [.dir d] } :=
    perform_eq _ s
  refine ⟨hdir, ?_, ?_, (perform_delay .microseconds · s), (perform_delay .milliseconds · s)⟩
  · rw [hdir, ← envMove_dataOut s]
    rfl
  · rw [hdir]
    rfl

end Sys2Proof.Machine
end

section
/-! SUPPORT. The Nibble Transport of 41_nibble_transport.md (O11 to O13): WRNIBC and WRNIBD are one `Transfer` of `A[3:0]`, each
with its level of RS, so that one lemma over the rule (`exec_nibbleWrite`) settles both. -/

namespace Sys2Proof.Machine

open Sys2Proof.Safety

/-- An operation whose rule is one `Transfer(rs, A[3:0])` that sets no session flag (R80 to R82): the pins are driven only if
they were outputs before, since no step of it writes `DIR` (R171). -/
theorem exec_nibbleWrite {i : Instr} {op : Nibble} {a b : Byte} {rs : Bool} {s : State} (hw : s.cfg.wf = true)
    (hi : s.seq = .idle) (hr : ruleOf i s = ⟨op, a, b, transfer rs (nibbleOperand a), .none⟩) :
    ∃ t, exec i s = .next t ∧ Completed s t op a b (transferTokens rs (a.extractLsb' 0 4)) 0 ∧
      t.rs = rs ∧ t.rw = false ∧ t.e = false ∧ t.dir = s.dir ∧ t.dataOut = a.extractLsb' 0 4 ∧
      t.dataPins = (if s.dir = .output then some (a.extractLsb' 0 4) else none) ∧
      t.flag = s.flag ∧ t.cnt = s.cnt ∧ t.status = 0 ∧ SessionKept s t := by
  have items : (ruleOf i s).items = transfer rs (nibbleOperand a) := by rw [hr]
  obtain ⟨t, ht, completed, rs, rw, e, dir, data, flag, cnt, status, initialized, enabled⟩ :=
    exec_transfer i s rs (nibbleOperand a) hw hi items
  rw [hr] at completed initialized enabled
  have pins : t.dataPins = if s.dir = .output then some (nibbleOperand a) else none := by rw [dataPins_eq, dir, data]
  have session : SessionKept s t := ⟨initialized.trans (Bool.or_false _), enabled.trans (Bool.or_false _)⟩
  exact ⟨t, ht, completed, rs, rw, e, dir, data, pins, flag, cnt, status, session⟩

/-- Settles O11: the rule of WRNIBC is the `Transfer` with `RS = 0`. -/
theorem wrnibcIsOneControlTransfer : Obligations.WrnibcIsOneControlTransfer :=
  fun _ _ _ hw hi => exec_nibbleWrite hw hi rfl

/-- Settles O12: the rule of WRNIBD is the `Transfer` with `RS = 1`. -/
theorem wrnibdIsOneDataTransfer : Obligations.WrnibdIsOneDataTransfer :=
  fun _ _ _ hw hi => exec_nibbleWrite hw hi rfl

/-- Only the first token of a `Transfer` depends on the level of RS (R80). -/
theorem transferTokens_eq_cons (rs : Bool) (n : Nibble) :
    transferTokens rs n = .rs rs :: (transferTokens false n).tail := rfl

/-- Settles O13: both traces grow by the tokens of the `Transfer` of the same nibble. -/
theorem nibbleWritesDifferInTheFirstTokenOnly : Obligations.NibbleWritesDifferInTheFirstTokenOnly := by
  intro a b s hw hi
  obtain ⟨c, hc, control, -⟩ := wrnibcIsOneControlTransfer a b s hw hi
  obtain ⟨d, hd, data, -⟩ := wrnibdIsOneDataTransfer a b s hw hi
  refine ⟨c, d, (transferTokens false (a.extractLsb' 0 4)).tail, hc, hd, ?_, ?_⟩
  · rw [control.trace, ← transferTokens_eq_cons]
  · rw [data.trace, ← transferTokens_eq_cons]

end Sys2Proof.Machine
end

section
/-! SUPPORT. The Busy-Flag Poller of 42_busy_poller.md (O14, O15): what POLL does is `poll_spec` between its acceptance and its
completion; how long its trace is follows from the counts of `pollTokens` and from how many of its samples are busy. -/

namespace Sys2Proof.Machine

open Sys2Proof.Safety

/-- Settles O14: `poll_spec`, whose terms are the same before and after the acceptance. -/
theorem pollReadsUntilReadyOrBudget : Obligations.PollReadsUntilReadyOrBudget := by
  intro a b s hw hi
  obtain ⟨ran, bus, left, status, initialized⟩ := poll_spec (accept (ruleOf (.poll a b) s) s) hw
  rw [accept_pollTokens, accept_pollCount] at ran
  rw [accept_status, BitVec.zero_or, accept_timesOut] at status
  exact ⟨_, exec_idle (.poll a b) s hw hi, completed_of_ran ran, complete_busRestored _ bus, complete_pollLeft _ left,
    status, (Bool.or_false _).trans initialized, (Bool.or_false _).trans ran.enabled⟩

/-- Where TIMEOUT is the only possible cause, its bit tells whether it occurred (R140). -/
theorem timeout_eq_of_status {t : State} {timedOut : Bool} (h : t.status = timeoutStatus timedOut) :
    t.timeout = timedOut := by
  rw [State.timeout, h]
  cases timedOut <;> rfl

/-- Settles O15: `k` and `m` are counted by `pollTokens_counts` and related by `pollCount_cases`. -/
theorem pollTraceLength : Obligations.PollTraceLength := by
  intro a b s hw hi
  obtain ⟨t, ht, completed, -, left, status, -⟩ := pollReadsUntilReadyOrBudget a b s hw hi
  obtain ⟨length, samples, busySamples, -⟩ := pollTokens_counts s 0
  obtain ⟨busyCount, least, most, wholeBudget, readyAtOnce⟩ := pollCount_cases s 0 hw
  have timeout : t.timeout = timesOut s 0 := timeout_eq_of_status status
  refine ⟨t, pollTokens s 0, _, _, ht, completed.trace, length, samples, busySamples, least, most,
    fun hready => ?_, fun htimeout => ?_, fun hfirst => ?_⟩
  · rw [timeout] at hready
    rw [hready, if_neg Bool.false_ne_true] at busyCount
    exact ⟨busyCount, left.flag.trans hready⟩
  · rw [timeout] at htimeout
    rw [htimeout, if_pos rfl] at busyCount
    exact ⟨busyCount, wholeBudget htimeout, left.flag.trans htimeout⟩
  · obtain ⟨onePass, hready⟩ := readyAtOnce hfirst
    rw [hready, if_neg Bool.false_ne_true] at busyCount
    omega

end Sys2Proof.Machine
end

section
/-! SUPPORT. The Protocol/Command Layer of 43_protocol_commands.md (O16 to O21, O25). WRCMD, WRDATA and ENABLE are one `WriteByte`
(`exec_writeByte`); INIT and START send a list of command bytes, which `SentCommands` says once for the sequence of R104
(`initSequence_sent`) and for one more byte after it (`SentCommands.writeByte`). -/

namespace Sys2Proof.Machine

open Sys2Proof.Safety

/-! ### Operations with no bus step, or with one byte write -/

/-- Settles O21: the rule of NOP has no line, so acceptance and completion follow each other. -/
theorem nopOnlyAcceptsAndCompletes : Obligations.NopOnlyAcceptsAndCompletes := by
  intro a b s hw hi
  rw [exec_idle (.nop a b) s hw hi]
  simp [ruleOf, ruleNop, accept, complete, setSession, AtCompletion.none, hi]

/-- An operation whose rule is `WriteByte(rs, c)` and sets no session flag (R101). -/
theorem exec_writeByte_sessionKept {i : Instr} {op : Nibble} {a b c : Byte} {rs : Bool} {s : State}
    (hw : s.cfg.wf = true) (hi : s.seq = .idle) (hr : ruleOf i s = ⟨op, a, b, writeByte s.cfg rs c, .none⟩) :
    ∃ t, exec i s = .next t ∧ Completed s t op a b (writeTokens s 0 rs c) (pollCount s 0) ∧
      BusRestored t rs (c.extractLsb' 0 4) ∧ PollLeft s t 0 ∧ t.status = timeoutStatus (timesOut s 0) ∧
      SessionKept s t := by
  have items : (ruleOf i s).items = writeByte s.cfg rs c := by rw [hr]
  obtain ⟨t, ht, completed, bus, left, status, initialized, enabled⟩ := exec_writeByte i s rs c hw hi items
  rw [hr] at completed initialized enabled
  exact ⟨t, ht, completed, bus, left, status, initialized.trans (Bool.or_false _), enabled.trans (Bool.or_false _)⟩

/-- Settles O16: the rule of WRCMD is `WriteByte(0, A)`. -/
theorem wrcmdPollsThenSendsTheCommand : Obligations.WrcmdPollsThenSendsTheCommand :=
  fun _ _ _ hw hi => exec_writeByte_sessionKept hw hi rfl

/-- Settles O17: the rule of WRDATA is `WriteByte(1, A)`. -/
theorem wrdataPollsThenSendsTheData : Obligations.WrdataPollsThenSendsTheData :=
  fun _ _ _ hw hi => exec_writeByte_sessionKept hw hi rfl

/-- Settles O20: the rule of ENABLE is the write of `CMD_DISPLAY_ON`, and its completion sets `ENABLED` only. -/
theorem enableTurnsOnTheDisplay : Obligations.EnableTurnsOnTheDisplay := by
  intro a b s hw hi
  obtain ⟨t, ht, completed, bus, left, status, initialized, enabled⟩ :=
    exec_writeByte (.enable a b) s false s.cfg.cmdDisplayOn hw hi rfl
  exact ⟨t, ht, completed, bus, left, status, initialized.trans (Bool.or_false _), enabled.trans (Bool.or_true _)⟩

/-! ### Operations that send several command bytes -/

/-- From `s` to `t` the tokens `pre` and then the command writes of `bs` were performed, `c` being the last byte sent
(R101, R143). -/
structure SentCommands (s t : State) (pre : List Token) (bs : List Byte) (c : Byte) : Prop where
  ran : Ran s t (pre ++ writesTokens s 0 bs) (writesCount s 0 bs)
  bus : BusRestored t false (lowNibble c)
  left : PollLeft s t (lastPollAt s 0 bs)
  status : t.status = s.status ||| timeoutStatus (writesTimeOut s 0 bs)

/-- Steps 1 to 17 of R104. -/
theorem initSequence_sent (s : State) (hw : s.cfg.wf = true) :
    let t := runItems (initSequence s.cfg) s
    SentCommands s t (modeSelectTokens s.cfg) (commandBytes s.cfg) s.cfg.cmdHome ∧ t.initialized = s.initialized := by
  obtain ⟨ran, bus, left, status, initialized⟩ := initSequence_spec s hw
  exact ⟨⟨ran, bus, left, status⟩, initialized⟩

/-- One more command write: its poll begins where the samples of the writes before it end. -/
theorem SentCommands.writeByte {s p : State} {pre : List Token} {bs : List Byte} (hw : s.cfg.wf = true)
    (ran : Ran s p (pre ++ writesTokens s 0 bs) (writesCount s 0 bs))
    (status : p.status = s.status ||| timeoutStatus (writesTimeOut s 0 bs)) (c : Byte) :
    let t := runItems (Machine.writeByte s.cfg false c) p
    SentCommands s t pre (bs ++ [c]) c ∧ t.initialized = p.initialized := by
  intro t
  have h := writeByte_spec false c p (by rw [ran.cfg]; exact hw)
  rw [ran.cfg] at h
  obtain ⟨ranByte, bus, left, statusByte, initialized⟩ := h
  obtain ⟨tokens, count, timeOut⟩ := writes_append s [c] bs 0
  have last := lastPollAt_append s c bs 0
  simp only [writesTokens, writesCount, writesTimeOut, List.append_nil, Nat.add_zero, Nat.zero_add, Bool.or_false]
    at tokens count timeOut last
  have ranAll := ran.trans ranByte
  rw [ran.writeTokens, ran.pollCount, Nat.add_zero, List.append_assoc, ← tokens, ← count] at ranAll
  rw [status, ran.timesOut, Nat.add_zero, BitVec.or_assoc, timeoutStatus_or, ← timeOut] at statusByte
  refine ⟨⟨ranAll, bus, ⟨?_, ?_⟩, statusByte⟩, initialized⟩
  · rw [left.flag, ran.timesOut, last, Nat.add_zero]
  · rw [left.cnt, ran.pollCount, ran.cfg, last, Nat.add_zero]

/-- An operation whose items send command bytes, in the terms of the claims: acceptance changes none of them. -/
theorem SentCommands.completed {r : Rule} {s t : State} {pre : List Token} {bs : List Byte} {c : Byte}
    (h : SentCommands (accept r s) t pre bs c) :
    Completed s (complete r.fin t) r.op r.a r.b (pre ++ writesTokens s 0 bs) (writesCount s 0 bs) ∧
    BusRestored (complete r.fin t) false (c.extractLsb' 0 4) ∧ PollLeft s (complete r.fin t) (lastPollAt s 0 bs) ∧
    (complete r.fin t).status = timeoutStatus (writesTimeOut s 0 bs) := by
  obtain ⟨ran, bus, left, status⟩ := h
  rw [accept_writesTokens, accept_writesCount] at ran
  rw [accept_lastPollAt] at left
  rw [accept_status, BitVec.zero_or, accept_writesTimeOut] at status
  exact ⟨completed_of_ran ran, complete_busRestored _ bus, complete_pollLeft _ left, status⟩

/-! ### Lengths and delay totals when every poll is ready at once (R178) -/

/-- A poll ready at its first sample makes one pass (R94). -/
theorem pollCount_of_ready {s : State} {j : Nat} (hw : s.cfg.wf = true) (hready : busyAt s j = false) :
    pollCount s j = 1 := by
  obtain ⟨-, -, -, -, ready⟩ := pollCount_cases s j hw
  exact (ready hready).1

/-- A byte write whose poll is ready at its first sample: 14 + 7 + 7 bus steps (R101). -/
theorem writeTokens_ready {s : State} {j : Nat} (hw : s.cfg.wf = true) (hready : busyAt s j = false) (rs : Bool) (b : Byte) :
    (writeTokens s j rs b).length = 28 ∧
    delayTotal (writeTokens s j rs b) = 2 * s.cfg.tPollSetupUs + s.cfg.tPollGapUs + 6 := by
  obtain ⟨length, -, -, delays⟩ := pollTokens_counts s j
  have noBusy : (List.range 1).countP (fun i => busyAt s (j + i)) = 0 := by simp [hready]
  rw [pollCount_of_ready hw hready, noBusy] at length delays
  constructor
  · simp only [writeTokens, List.length_append, length, transferTokens_counts]
  · simp only [writeTokens, delayTotal_append, delays, transferTokens_counts]
    omega

/-- Command writes one after the other, every poll ready at its first sample. -/
theorem writesTokens_ready {s : State} (hw : s.cfg.wf = true) (bs : List Byte) :
    ∀ j, (∀ i, i < bs.length → busyAt s (j + i) = false) →
      (writesTokens s j bs).length = 28 * bs.length ∧
      delayTotal (writesTokens s j bs) = bs.length * (2 * s.cfg.tPollSetupUs + s.cfg.tPollGapUs + 6) := by
  induction bs with
  | nil => exact fun _ _ => ⟨rfl, by simp [writesTokens, delayTotal]⟩
  | cons b bs ih =>
    intro j hready
    have first : busyAt s j = false := hready 0 (Nat.zero_lt_succ _)
    obtain ⟨length, delays⟩ := writeTokens_ready hw first false b
    obtain ⟨lengths, delayTotals⟩ := ih (j + 1) fun i hlt => by
      rw [Nat.add_assoc, Nat.add_comm 1]
      exact hready (i + 1) (Nat.succ_lt_succ hlt)
    rw [writesTokens, pollCount_of_ready hw first, List.length_append, delayTotal_append, length, delays, lengths,
      delayTotals, List.length_cons]
    exact ⟨by omega, by ring⟩

/-- Steps 1 to 10 of R104: two bus steps, four `Transfer`s and the four delays after them. -/
theorem modeSelectTokens_counts (c : Params) :
    (modeSelectTokens c).length = 34 ∧
    delayTotal (modeSelectTokens c) = 60012 + 1000 * c.tInit3Ms + 1000 * c.tInit4Ms := by
  simp only [modeSelectTokens, List.length_append, delayTotal_append, transferTokens_counts]
  simp [delayTotal, Token.asksUs]
  omega

/-! ### INIT and START -/

/-- Settles O18: the sequence is sent whatever the polls return, and the completion sets `INITIALIZED`. -/
theorem initSendsTheWholeSequence : Obligations.InitSendsTheWholeSequence := by
  intro a b s hw hi tokens
  obtain ⟨sent, -⟩ := initSequence_sent (accept (ruleOf (.init a b) s) s) hw
  obtain ⟨completed, bus, left, status⟩ := sent.completed
  refine ⟨_, exec_idle (.init a b) s hw hi, completed, fun hdelays hready => ?_, bus, left, status,
    (complete_initialized _ _).trans (Bool.or_true _), (complete_enabled _ _).trans ((Bool.or_false _).trans sent.ran.enabled)⟩
  obtain ⟨init3, init4, setup, gap, -⟩ := hdelays
  obtain ⟨lengthMode, delaysMode⟩ := modeSelectTokens_counts s.cfg
  obtain ⟨lengthBytes, delaysBytes⟩ := writesTokens_ready hw (commandBytes s.cfg) 0
    fun i hlt => by rw [Nat.zero_add]; exact hready i hlt
  rw [init3, init4] at delaysMode
  rw [setup, gap] at delaysBytes
  rw [List.length_append, delayTotal_append, lengthMode, delaysMode, lengthBytes, delaysBytes]
  rfl

/-- `INITIALIZED <- 1` inside START is no bus step (R106). -/
theorem Ran.setInitialized {s t : State} {l : List Token} {n : Nat} (h : Ran s t l n) :
    Ran s (runItem .setInitialized t) l n := h.of_eq rfl

theorem setInitialized_status (s : State) : (runItem .setInitialized s).status = s.status := rfl

theorem setInitialized_initialized (s : State) : (runItem .setInitialized s).initialized = true := rfl

/-- The items of START send the display-on command alone with `INITIALIZED = 1`, else after the sequence of INIT (R106). -/
theorem start_sent (a b : Byte) (s : State) (hw : s.cfg.wf = true) :
    let r := ruleOf (.start a b) s
    let t := runItems r.items (accept r s)
    SentCommands (accept r s) t (if s.initialized then [] else modeSelectTokens s.cfg)
      (if s.initialized then [s.cfg.cmdDisplayOn] else commandBytes s.cfg ++ [s.cfg.cmdDisplayOn]) s.cfg.cmdDisplayOn ∧
    t.initialized = true := by
  intro r t
  cases h : s.initialized with
  | true =>
    have items : r.items = writeByte s.cfg false s.cfg.cmdDisplayOn := by
      simp only [r, ruleOf, ruleStart, h, if_true, List.nil_append]
    obtain ⟨sent, initialized⟩ := SentCommands.writeByte (s := accept r s) (pre := []) (bs := []) hw (Ran.refl _)
      (BitVec.or_zero).symm s.cfg.cmdDisplayOn
    rw [accept_cfg, ← items] at sent initialized
    exact ⟨sent, initialized.trans h⟩
  | false =>
    have items : r.items = initSequence s.cfg ++ [.setInitialized] ++ writeByte s.cfg false s.cfg.cmdDisplayOn := by
      simp only [r, ruleOf, ruleStart, h, Bool.false_eq_true, if_false]
    obtain ⟨sentInit, -⟩ := initSequence_sent (accept r s) hw
    obtain ⟨sent, initialized⟩ := SentCommands.writeByte (s := accept r s) hw
      sentInit.ran.setInitialized ((setInitialized_status _).trans sentInit.status) s.cfg.cmdDisplayOn
    have ht : t = runItems (writeByte s.cfg false s.cfg.cmdDisplayOn)
        (runItem .setInitialized (runItems (initSequence s.cfg) (accept r s))) := by
      simp only [t, items, runItems_append, runItems_cons, runItems_nil]
    rw [accept_cfg, ← ht] at sent initialized
    exact ⟨sent, initialized.trans (setInitialized_initialized _)⟩

/-- Settles O19: `start_sent` between acceptance and completion, which sets `ENABLED`. -/
theorem startInitializesOnceThenTurnsOn : Obligations.StartInitializesOnceThenTurnsOn := by
  intro a b s hw hi bytes tokens
  obtain ⟨sent, initialized⟩ := start_sent a b s hw
  obtain ⟨completed, bus, left, status⟩ := sent.completed
  refine ⟨_, exec_idle (.start a b) s hw hi, completed, fun _ hready => ?_, bus, left, status,
    (Bool.or_false _).trans initialized, (complete_enabled _ _).trans (Bool.or_true _)⟩
  have length (bs : List Byte) (hlt : bs.length ≤ 8) : (writesTokens s 0 bs).length = 28 * bs.length :=
    (writesTokens_ready hw bs 0 fun i hi => by rw [Nat.zero_add]; exact hready i (hi.trans_le hlt)).1
  cases h : s.initialized with
  | true =>
    simp only [tokens, bytes, h, if_true, List.nil_append]
    exact length [s.cfg.cmdDisplayOn] (by simp)
  | false =>
    simp only [tokens, bytes, h, Bool.false_eq_true, if_false, List.length_append, (modeSelectTokens_counts s.cfg).1]
    rw [length _ (by simp [commandBytes])]
    rfl

/-! ### The power-on sequence is sent once (R108) -/

/-- `o` is a next state whose trace has grown from that of `s` by tokens of which `n` are `ms(40)`, the boot delay of the
power-on sequence. -/
def PowerOns (s : State) (o : Host.Outcome State Fault Refusal) (n : Nat) : Prop :=
  ∃ t tokens, o = .next t ∧ t.trace = s.trace ++ tokens ∧ tokens.count (.ms 40) = n

theorem PowerOns.after {s u : State} {o : Host.Outcome State Fault Refusal} {m n : Nat} {tokens : List Token}
    (trace : u.trace = s.trace ++ tokens) (count : tokens.count (.ms 40) = m) (h : PowerOns u o n) :
    PowerOns s o (m + n) := by
  obtain ⟨t, later, ht, traceLater, countLater⟩ := h
  exact ⟨t, tokens ++ later, ht, by rw [traceLater, trace, List.append_assoc], by rw [List.count_append, count, countLater]⟩

/-- Only steps 1 to 10 of R104 ask for milliseconds: a byte write never does. -/
theorem count_ms_writesTokens (s : State) (n : Nat) (bs : List Byte) : ∀ j, (writesTokens s j bs).count (.ms n) = 0 := by
  have pass (h : Nibble) : (passTokens s.cfg h).count (.ms n) = 0 := by
    unfold passTokens
    split <;> simp
  have write (j : Nat) (b : Byte) : (writeTokens s j false b).count (.ms n) = 0 := by
    simp [writeTokens, pollTokens, transferTokens, List.count_flatMap, Function.comp_def, pass]
  induction bs with
  | nil => exact fun _ => rfl
  | cons b bs ih => exact fun j => by rw [writesTokens, List.count_append, write, ih]

theorem count_ms_modeSelectTokens {c : Params} (h3 : c.tInit3Ms ≠ 40) (h4 : c.tInit4Ms ≠ 40) :
    (modeSelectTokens c).count (.ms 40) = 1 := by
  simp [modeSelectTokens, transferTokens, h3, h4]

/-- After an INIT or a START no number of STARTs sends the sequence. -/
theorem starts_powerOns (n : Nat) : ∀ s : State, s.cfg.wf = true → s.seq = .idle → s.initialized = true →
    PowerOns s (starts n s) 0 := by
  induction n with
  | zero => exact fun s _ _ _ => ⟨s, [], rfl, (List.append_nil _).symm, rfl⟩
  | succ n ih =>
    intro s hw hi h
    obtain ⟨t, ht, completed, -, -, -, -, initialized, -⟩ := startInitializesOnceThenTurnsOn 0 0 s hw hi
    simp only [h, if_true, List.nil_append] at completed
    rw [starts, ht, andThen_next]
    exact (ih t (by rw [completed.cfg]; exact hw) completed.seq initialized).after completed.trace
      (count_ms_writesTokens s 40 _ 0)

/-- Settles O25: `PowerOns` counted along the requests; INIT and the first START add one, every later START none. -/
theorem powerOnSequenceIsSentOnce : Obligations.PowerOnSequenceIsSentOnce := by
  intro s hw hi h3 h4
  have sequence (u : State) (hu : u.cfg = s.cfg) (bs : List Byte) :
      (modeSelectTokens u.cfg ++ writesTokens u 0 bs).count (.ms 40) = 1 := by
    rw [hu, List.count_append, count_ms_modeSelectTokens h3 h4, count_ms_writesTokens]
  refine ⟨?_, fun h n => ?_⟩
  · obtain ⟨s1, hs1, completed, -, -, -, -, initialized, -⟩ := initSendsTheWholeSequence 0 0 s hw hi
    have hw1 : s1.cfg.wf = true := by rw [completed.cfg]; exact hw
    have after {o n} : PowerOns s1 o n → PowerOns s o (1 + n) := PowerOns.after completed.trace (sequence s rfl _)
    obtain ⟨s2, hs2, again, -⟩ := initSendsTheWholeSequence 0 0 s1 hw1 completed.seq
    exact ⟨s1, hs1, fun n => after (starts_powerOns n s1 hw1 completed.seq initialized),
      after ⟨s2, _, hs2, again.trace, sequence s1 completed.cfg _⟩⟩
  · obtain ⟨s1, hs1, completed, -, -, -, -, initialized, -⟩ := startInitializesOnceThenTurnsOn 0 0 s hw hi
    simp only [h, Bool.false_eq_true, if_false] at completed
    rw [starts, hs1, andThen_next]
    exact (starts_powerOns n s1 (by rw [completed.cfg]; exact hw) completed.seq initialized).after completed.trace
      (sequence s rfl _)

end Sys2Proof.Machine
end

section
/-! SUPPORT. Cursor Addressing of 44_cursor_addressing.md (O22, O23): a valid row makes the rule of SETPOS one command write
(`ruleOf_setpos_of_cursorCommand`), settled by `exec_writeByte_sessionKept`; any other row leaves it the one line BADROW. -/

namespace Sys2Proof.Machine

open Sys2Proof.Safety

/-- The four rows of `ROW_BASE` (R39). -/
theorem rowBase_of_le {row : Byte} (h : row ≤ 3#8) :
    Config.rowBase row = some (if row = 0 then 0x80 else if row = 1 then 0xC0 else if row = 2 then 0x94 else 0xD4) := by
  revert row; decide

/-- The sum of two bytes is their sum modulo 256, so the column of R122 needs no check. -/
theorem ofNat_toNat_add_mod (x y : Byte) : BitVec.ofNat 8 ((x.toNat + y.toNat) % 256) = x + y :=
  BitVec.eq_of_toNat_eq (by rw [BitVec.toNat_ofNat, BitVec.toNat_add, Nat.mod_mod])

theorem cursorCommand_of_rowBase {row base : Byte} (h : Config.rowBase row = some base) (column : Byte) :
    cursorCommand row column = some (BitVec.ofNat 8 ((base.toNat + column.toNat) % 256)) := by
  rw [cursorCommand, h, Option.map_some, ofNat_toNat_add_mod]

theorem cursorCommand_eq_none_of_lt {row : Byte} (h : 3#8 < row) (column : Byte) : cursorCommand row column = none := by
  rw [← Option.isNone_iff_eq_none, ← Option.isSome_eq_false_iff, cursorCommand, Option.isSome_map, rowBase_isSome]
  exact decide_eq_false (BitVec.not_le.mpr h)

theorem ruleOf_setpos_of_cursorCommand {a b cmd : Byte} (h : cursorCommand a b = some cmd) (s : State) :
    ruleOf (.setpos a b) s = ⟨0x6, a, b, writeByte s.cfg false cmd, .none⟩ :=
  congrArg (Rule.mk 0x6 a b · .none) (ruleSetpos_items_some h)

theorem ruleOf_setpos_of_cursorCommand_none {a b : Byte} (h : cursorCommand a b = none) (s : State) :
    ruleOf (.setpos a b) s = ⟨0x6, a, b, [.badRow], .none⟩ :=
  congrArg (Rule.mk 0x6 a b · .none) (ruleSetpos_items_none h)

/-- Settles O22: with a valid row the rule of SETPOS is `WriteByte(0, cmd)`. -/
theorem setposSendsTheCursorCommand : Obligations.SetposSendsTheCursorCommand := by
  intro a b s hw hi ha
  have command := cursorCommand_of_rowBase (rowBase_of_le ha) b
  exact exec_writeByte_sessionKept hw hi (ruleOf_setpos_of_cursorCommand command s)

/-- Settles O23: acceptance, the one line BADROW, completion. -/
theorem setposIgnoresAnInvalidRow : Obligations.SetposIgnoresAnInvalidRow := by
  intro a b s hw hi ha
  have noCommand := cursorCommand_eq_none_of_lt ha b
  rw [exec_idle (.setpos a b) s hw hi, ruleOf_setpos_of_cursorCommand_none noCommand]
  simp [accept, runItem, recordOutcome, Cause.bit, complete, setSession, AtCompletion.none, hi]

end Sys2Proof.Machine
end

section
/-! SUPPORT. The host-side pseudo-operations of 45_pseudo_operations.md (O56): the fixed expansions are the arms of `Pseudo.expand`;
PRINTSTR turns on whether a zero byte occurs in the string and on the bytes before the first one (R135). -/

namespace Sys2Proof.Machine

theorem terminated_iff_mem {s : List Byte} : terminated s = true ↔ 0#8 ∈ s := List.contains_iff_mem

/-- What stands after the first zero byte is not sent (R135). -/
theorem untilZero_append_zero {text : List Byte} (h : 0#8 ∉ text) (rest : List Byte) :
    untilZero (text ++ 0#8 :: rest) = text := by
  induction text with
  | nil => exact if_pos rfl
  | cons ch text ih =>
    have nonzero : ch ≠ 0#8 := (List.ne_of_not_mem_cons h).symm
    rw [List.cons_append, untilZero, if_neg nonzero, ih (List.not_mem_of_not_mem_cons h)]

theorem expand_printstr_of_mem {s : List Byte} (h : 0#8 ∈ s) (c : Params) :
    (Pseudo.printstr s).expand c = .ok ((untilZero s).map fun ch => .wrdata ch 0) :=
  if_pos (terminated_iff_mem.mpr h)

theorem expand_printstr_of_not_mem {s : List Byte} (h : 0#8 ∉ s) (c : Params) :
    (Pseudo.printstr s).expand c = .error .unterminatedString :=
  if_neg (mt terminated_iff_mem.mp h)

/-- Settles O56: the one-instruction expansions are arms of `Pseudo.expand`; PRINTSTR's two cases are whether a zero byte occurs. -/
theorem pseudoOperationsExpand : Obligations.PseudoOperationsExpand := by
  intro c
  refine ⟨rfl, rfl, rfl, rfl, fun _ => rfl, fun text rest h => ?_, fun text h => expand_printstr_of_not_mem h c⟩
  have zero : 0#8 ∈ text ++ 0#8 :: rest := List.mem_append_right text List.mem_cons_self
  rw [expand_printstr_of_mem zero, untilZero_append_zero h]

end Sys2Proof.Machine
end

section
/-! SUPPORT. The outcomes of 60_exceptions.md (O26): `MayReport` is the table of R141, which operation can complete with which STATUS
(`exec_mayReport`, from what is settled of each operation); what R140 says of the three bits is read off the table. -/

namespace Sys2Proof.Machine

open Sys2Proof.Safety

/-- R141: the operations that can complete with a STATUS value. -/
inductive MayReport : Instr → BitVec 3 → Prop where
  | ofPoll {i : Instr} (hp : polls i = true) (timedOut : Bool) : MayReport i (timeoutStatus timedOut)
  | badRow {a : Byte} (b : Byte) (ha : 3#8 < a) : MayReport (.setpos a b) 0b010#3
  | illegal {i : Instr} (hres : i.isReserved = true) : MayReport i 0b100#3
  | nop (a b : Byte) : MayReport (.nop a b) 0#3
  | wrnibc (a b : Byte) : MayReport (.wrnibc a b) 0#3
  | wrnibd (a b : Byte) : MayReport (.wrnibd a b) 0#3

theorem isReserved_eq_false_of_polls {i : Instr} (h : polls i = true) : i.isReserved = false := by
  cases i with
  | init | start | enable | wrcmd | wrdata | setpos | poll => rfl
  | _ => cases h

theorem polls_setpos_of_lt {a : Byte} (ha : 3#8 < a) (b : Byte) : polls (.setpos a b) = false :=
  decide_eq_false (BitVec.not_le.mpr ha)

namespace MayReport

variable {i : Instr} {v : BitVec 3}

/-- No value of the table has two bits. -/
theorem legal (h : MayReport i v) : legalStatus v = true := by
  cases h with
  | ofPoll _ timedOut => exact legalStatus_timeoutStatus timedOut
  | _ => rfl

theorem illegal_eq_isReserved (h : MayReport i v) : v.getLsbD 2 = i.isReserved := by
  cases h with
  | ofPoll hp timedOut => rw [isReserved_eq_false_of_polls hp]; cases timedOut <;> rfl
  | illegal hres => rw [hres]; rfl
  | _ => rfl

theorem badRow_iff (h : MayReport i v) : v.getLsbD 1 = true ↔ ∃ a b, i = .setpos a b ∧ 3#8 < a := by
  cases h with
  | badRow b ha => exact iff_of_true rfl ⟨_, b, rfl, ha⟩
  | ofPoll hp timedOut =>
    refine iff_of_false (by cases timedOut <;> decide) ?_
    rintro ⟨a, b, rfl, ha⟩
    exact absurd hp (Bool.eq_false_iff.mp (polls_setpos_of_lt ha b))
  | illegal hres =>
    refine iff_of_false (by decide) ?_
    rintro ⟨a, b, rfl, -⟩
    cases hres
  | _ => exact iff_of_false (by decide) (by rintro ⟨a, b, ⟨⟩, -⟩)

theorem polls_of_timeout (h : MayReport i v) (hv : v.getLsbD 0 = true) : polls i = true := by
  cases h with
  | ofPoll hp _ => exact hp
  | _ => cases hv

end MayReport

section Accepted

variable {s : State} (hw : s.cfg.wf = true) (hi : s.seq = .idle)
include hw hi

theorem exec_setpos_mayReport (a b : Byte) :
    ∃ t, exec (.setpos a b) s = .next t ∧ t.responses = s.responses ++ [t.status] ∧ MayReport (.setpos a b) t.status := by
  by_cases ha : a ≤ 3#8
  · obtain ⟨t, ht, completed, -, -, status, -⟩ := setposSendsTheCursorCommand a b s hw hi ha
    have hp : polls (.setpos a b) = true := decide_eq_true ha
    exact ⟨t, ht, completed.responses, status ▸ .ofPoll hp _⟩
  · have ha : 3#8 < a := BitVec.not_le.mp ha
    exact ⟨_, setposIgnoresAnInvalidRow a b s hw hi ha, rfl, .badRow b ha⟩

/-- Every operation from an idle state gives the STATUS as its response, and a STATUS of the table. -/
theorem exec_mayReport (i : Instr) :
    ∃ t, exec i s = .next t ∧ t.responses = s.responses ++ [t.status] ∧ MayReport i t.status := by
  cases hres : i.isReserved with
  | true => exact ⟨_, reservedCodesCompleteAsIllegal i s hw hi hres, rfl, .illegal hres⟩
  | false =>
    cases i with
    | nop a b => exact ⟨_, nopOnlyAcceptsAndCompletes a b s hw hi, rfl, .nop a b⟩
    | init a b =>
      obtain ⟨t, ht, completed, -, -, -, status, -⟩ := initSendsTheWholeSequence a b s hw hi
      exact ⟨t, ht, completed.responses, status ▸ .ofPoll rfl _⟩
    | start a b =>
      obtain ⟨t, ht, completed, -, -, -, status, -⟩ := startInitializesOnceThenTurnsOn a b s hw hi
      exact ⟨t, ht, completed.responses, status ▸ .ofPoll rfl _⟩
    | enable a b =>
      obtain ⟨t, ht, completed, -, -, status, -⟩ := enableTurnsOnTheDisplay a b s hw hi
      exact ⟨t, ht, completed.responses, status ▸ .ofPoll rfl _⟩
    | wrcmd a b =>
      obtain ⟨t, ht, completed, -, -, status, -⟩ := wrcmdPollsThenSendsTheCommand a b s hw hi
      exact ⟨t, ht, completed.responses, status ▸ .ofPoll rfl _⟩
    | wrdata a b =>
      obtain ⟨t, ht, completed, -, -, status, -⟩ := wrdataPollsThenSendsTheData a b s hw hi
      exact ⟨t, ht, completed.responses, status ▸ .ofPoll rfl _⟩
    | setpos a b => exact exec_setpos_mayReport hw hi a b
    | poll a b =>
      obtain ⟨t, ht, completed, -, -, status, -⟩ := pollReadsUntilReadyOrBudget a b s hw hi
      exact ⟨t, ht, completed.responses, status ▸ .ofPoll rfl _⟩
    | wrnibc a b =>
      obtain ⟨t, ht, completed, -, -, -, -, -, -, -, -, status, -⟩ := wrnibcIsOneControlTransfer a b s hw hi
      exact ⟨t, ht, completed.responses, status ▸ .wrnibc a b⟩
    | wrnibd a b =>
      obtain ⟨t, ht, completed, -, -, -, -, -, -, -, -, status, -⟩ := wrnibdIsOneDataTransfer a b s hw hi
      exact ⟨t, ht, completed.responses, status ▸ .wrnibd a b⟩
    | reserved7 | reservedB | reservedC | reservedD | reservedE | reservedF => cases hres

end Accepted

/-- Settles O26: the bits of the STATUS that the table gives the operation. -/
theorem statusReportsAtMostOneCause : Obligations.StatusReportsAtMostOneCause := by
  intro i s hw hi
  obtain ⟨t, ht, responses, reports⟩ := exec_mayReport hw hi i
  exact ⟨t, ht, reports.legal, responses, reports.illegal_eq_isReserved, reports.badRow_iff, reports.polls_of_timeout⟩

end Sys2Proof.Machine
end

section
/-! SUPPORT. Reset and the idle CORE of 70_reset_and_hazards.md (O29, O30, O31, O36): the reset event is `applyReset`, whose fields
Laws/State.lean gives, and an idle CORE with nothing presented stays as it is (`ticks_wait`). -/

namespace Sys2Proof.Machine

open Sys2Proof.Safety

/-- Settles O29: each field is the value written in `State.reset`. -/
theorem resetStateHoldsTheTable : Obligations.ResetStateHoldsTheTable := by
  unfold Obligations.ResetStateHoldsTheTable
  decide

/-- Reset clears the data field of PORT_OUT (R160). -/
theorem applyReset_dataOut {s : State} (hw : s.cfg.wf = true) : (applyReset s).dataOut = 0 :=
  dataField_portWriteNibble hw _ _

theorem applyReset_foreignBits (s : State) :
    foreignBits s.cfg (applyReset s).portOut = foreignBits s.cfg s.portOut :=
  foreignBits_portWriteNibble _ _

/-- Settles O30: step and event are `applyReset`, whatever the sequencer's position. -/
theorem resetAbandonsAndClears : Obligations.ResetAbandonsAndClears := by
  intro s hw hr
  exact ⟨applyReset s, step_reset hw hr, tick_reset hw hr, rfl, rfl, rfl, rfl, rfl, rfl, rfl, rfl, rfl, rfl, rfl, rfl,
    applyReset_dataOut hw, rfl, applyReset_foreignBits s, rfl, rfl, rfl⟩

/-- Settles O31: of the inputs `applyReset` writes `rst` only. -/
theorem resetLeavesTheEnvironmentAlone : Obligations.ResetLeavesTheEnvironmentAlone := by
  intro s hw hr
  exact ⟨applyReset s, step_reset hw hr, rfl, rfl, rfl, rfl, rfl, rfl⟩

/-- R162: no number of events moves an idle CORE with no request and no reset. -/
theorem ticks_wait {s : State} (hw : s.cfg.wf = true) (hr : s.rst = false) (hq : s.seq = .idle) (hl : s.requests = [])
    (n : Nat) : ticks n s = .next s := by
  induction n with
  | zero => rfl
  | succ n ih => rw [ticks_succ_of_tick (tick_wait hw hr hq hl), ih]

/-- Settles O36: the reset state is idle with the trace as before, and the wait is `ticks_wait`. -/
theorem idleCoreWaits : Obligations.IdleCoreWaits := by
  intro s hw
  exact ⟨fun hr => ⟨applyReset s, step_reset hw hr, rfl, rfl⟩,
    fun hr hq hl => ⟨step_wait hw hr hq hl, ticks_wait hw hr hq hl⟩⟩

end Sys2Proof.Machine
end

section
/-! SUPPORT. The end of a run (R181, O57): an accepted request takes the CORE through busy states to one more response
(`busy_until_answered`), so the requests of a program are answered one after the other (`run_ends`); an abandoned one leaves an idle CORE that waits. -/

namespace Sys2Proof.Machine

open Sys2Proof.Safety

/-! ### Events of one operation -/

theorem ticks_add_of_ticks {n : Nat} : ∀ {s t : State}, ticks n s = .next t → ∀ m, ticks (n + m) s = ticks m t := by
  induction n with
  | zero => rintro s t ⟨⟩ m; rw [Nat.zero_add]
  | succ n ih =>
    intro s t h m
    rw [Nat.succ_add_eq_add_succ, Nat.add_succ, ticks]
    rw [ticks] at h
    cases h1 : tick s with
    | next u => rw [h1] at h; exact ih h m
    | fault r => cases r
    | refused r => rw [h1] at h; cases h

theorem finish_rst (s : State) : (finish s).rst = s.rst := by
  cases hq : s.seq with
  | idle => rw [finish_idle hq]
  | run op k rest fin =>
    obtain ⟨_, _, ran⟩ := runItems_ran rest s
    rw [finish_run hq, complete_rst, ran.rst]

/-- The completion of a running operation is recorded and gives one response (R53). -/
theorem finish_answers {s : State} (hq : s.seq ≠ .idle) :
    (finish s).answered = true ∧ (finish s).responses.length = s.responses.length + 1 := by
  cases h : s.seq with
  | idle => exact absurd h hq
  | run op k rest fin =>
    obtain ⟨_, _, ran⟩ := runItems_ran rest s
    rw [finish_run h]
    exact ⟨rfl, by rw [complete_responses, List.length_append, ran.responses, List.length_singleton]⟩

/-- While the CORE is busy at every event, the completion to come stays the same. -/
theorem finish_ticks_busy (n : Nat) : ∀ {s t : State}, s.rst = false →
    (∀ m u, m < n → ticks m s = .next u → u.seq ≠ .idle) → ticks n s = .next t → finish t = finish s := by
  induction n with
  | zero => rintro s t - - ⟨⟩; rfl
  | succ n ih =>
    intro s t hr busy ht
    have hq : s.seq ≠ .idle := busy 0 s (Nat.succ_pos n) rfl
    cases h1 : tick s with
    | fault r => cases r
    | refused r => rw [ticks, h1] at ht; cases ht
    | next v =>
      have hfin : finish v = finish s := finish_tick hr hq h1
      have hrv : v.rst = false := by rw [← finish_rst, hfin, finish_rst, hr]
      rw [ticks_succ_of_tick h1] at ht
      rw [← hfin]
      exact ih hrv (fun m u hm hu => busy (m + 1) u (Nat.succ_lt_succ hm) (by rwa [ticks_succ_of_tick h1])) ht

/-! ### A program -/

theorem runOver_eq_true_iff (s : State) :
    s.runOver = true ↔ s.seq = .idle ∧ s.requests = [] ∧ s.answered = true := by
  simp [State.runOver, State.reqReady, and_assoc]

theorem runOver_of_busy {s : State} (hq : s.seq ≠ .idle) : s.runOver = false :=
  Bool.eq_false_iff.mpr fun h => hq ((runOver_eq_true_iff s).mp h).1

theorem runOver_of_waiting {s : State} (hl : s.requests ≠ []) : s.runOver = false :=
  Bool.eq_false_iff.mpr fun h => hl ((runOver_eq_true_iff s).mp h).2.1

theorem runOver_of_unanswered {s : State} (ha : s.answered = false) : s.runOver = false :=
  Bool.eq_false_iff.mpr fun h => Bool.false_ne_true (ha.symm.trans ((runOver_eq_true_iff s).mp h).2.2)

/-- After `n` events from `s` the run is over with `total` responses, and before that it is not over and a response is
missing (R181). -/
def RunEndsAfter (n : Nat) (s : State) (total : Nat) : Prop :=
  ∃ t, ticks n s = .next t ∧ t.runOver = true ∧ t.seq = .idle ∧ t.responses.length = total ∧
    ∀ m u, m < n → ticks m s = .next u → u.runOver = false ∧ u.responses.length < total

/-- Events at which the run is not over put before those to its end. -/
theorem RunEndsAfter.after {n k total : Nat} {s v : State} (h : RunEndsAfter n v total) (hv : ticks k s = .next v)
    (before : ∀ m u, m < k → ticks m s = .next u → u.runOver = false ∧ u.responses.length < total) :
    RunEndsAfter (k + n) s total := by
  obtain ⟨t, ht, hover, hidle, hlen, hbefore⟩ := h
  refine ⟨t, by rw [ticks_add_of_ticks hv, ht], hover, hidle, hlen, fun m u hm hu => ?_⟩
  by_cases hk : m < k
  · exact before m u hk hu
  · obtain ⟨d, rfl⟩ := Nat.exists_eq_add_of_le (Nat.le_of_not_lt hk)
    exact hbefore d u (Nat.lt_of_add_lt_add_left hm) (by rwa [ticks_add_of_ticks hv] at hu)

/-- One request and its events: from its acceptance to its completion the CORE is busy and its response is missing. -/
theorem busy_until_answered {s : State} {w : Request} {ws : List Request} (hw : s.cfg.wf = true) (hr : s.rst = false)
    (hq : s.seq = .idle) (hl : s.requests = w :: ws) :
    ∃ n v, ticks n s = .next v ∧ v.cfg.wf = true ∧ v.rst = false ∧ v.seq = .idle ∧ v.requests = ws ∧ v.answered = true ∧
      v.responses.length = s.responses.length + 1 ∧
      ∀ m u, m < n → ticks m s = .next u → u.runOver = false ∧ u.responses.length = s.responses.length := by
  have hacc := tick_accept hw hr hq hl
  generalize ha : accept (ruleOf (decode w) s) { s with requests := ws } = a at hacc
  have hcfg : a.cfg = s.cfg := by rw [← ha]; rfl
  have hra : a.rst = false := by rw [← ha]; exact hr
  have hqa : a.seq ≠ .idle := by rw [← ha, accept_seq]; exact Seq.noConfusion
  have hresp : a.responses = s.responses := by rw [← ha]; rfl
  obtain ⟨n, hn, busy⟩ := reachesFinish (s := a) (by rwa [hcfg]) hra
  obtain ⟨answered, responses⟩ := finish_answers hqa
  refine ⟨n + 1, finish a, by rw [ticks_succ_of_tick hacc, hn], by rwa [finish_cfg, hcfg], by rw [finish_rst, hra],
    finish_seq a, by rw [finish_requests, ← ha]; rfl, answered, by rw [responses, hresp], fun m u hm hu => ?_⟩
  cases m with
  | zero =>
    cases hu
    exact ⟨runOver_of_waiting (by rw [hl]; exact List.cons_ne_nil w ws), rfl⟩
  | succ m =>
    rw [ticks_succ_of_tick hacc] at hu
    have hmn : m < n := Nat.lt_of_succ_lt_succ hm
    have hqu : u.seq ≠ .idle := busy m u hmn hu
    have hfin : finish u = finish a := finish_ticks_busy m hra (fun j x hj => busy j x (hj.trans hmn)) hu
    have hlen : u.responses.length + 1 = s.responses.length + 1 := by
      rw [← (finish_answers hqu).2, hfin, responses, hresp]
    exact ⟨runOver_of_busy hqu, Nat.succ.inj hlen⟩

/-- The run of the requests presented to an idle CORE ends; with none left the last one has been answered. -/
theorem run_ends (program : List Request) : ∀ s : State, s.cfg.wf = true → s.rst = false → s.seq = .idle →
    s.requests = program → (program = [] → s.answered = true) →
    ∃ n, RunEndsAfter n s (s.responses.length + program.length) := by
  induction program with
  | nil =>
    intro s _ _ hq hl ha
    exact ⟨0, s, rfl, (runOver_eq_true_iff s).mpr ⟨hq, hl, ha rfl⟩, hq, rfl, fun m _ hm => absurd hm (Nat.not_lt_zero m)⟩
  | cons w ws ih =>
    intro s hw hr hq hl _
    obtain ⟨k, v, hv, hwv, hrv, hqv, hlv, answered, responses, before⟩ := busy_until_answered hw hr hq hl
    obtain ⟨n, hn⟩ := ih v hwv hrv hqv hlv fun _ => answered
    rw [responses, Nat.add_assoc, Nat.add_comm 1, ← List.length_cons (a := w)] at hn
    refine ⟨k + n, hn.after hv fun m u hm hu => ?_⟩
    obtain ⟨notOver, hlen⟩ := before m u hm hu
    exact ⟨notOver, by rw [hlen]; exact Nat.lt_add_of_pos_right (Nat.succ_pos ws.length)⟩

/-- Settles O57: `run_ends` for the program presented; after a reset of the last request the CORE waits unanswered. -/
theorem runIsOverAtTheLastCompletion : Obligations.RunIsOverAtTheLastCompletion := by
  constructor
  · intro s program hw hr hq hl hne
    obtain ⟨n, t, h⟩ := run_ends program (s.present program) hw hr hq (by rw [State.present, hl, List.nil_append])
      fun h => absurd h hne
    exact ⟨n, t, h⟩
  · intro s t hinv hrst hq hl ht n u hu
    rw [tick_reset hinv.cfg hrst] at ht
    cases ht
    rw [ticks_wait (s := applyReset s) hinv.cfg rfl rfl hl] at hu
    cases hu
    exact ⟨runOver_of_unanswered (hinv.unanswered hq), rfl⟩

end Sys2Proof.Machine
end

section
/-! SUPPORT. Bus steps and delay totals (O50, O51): `Costs` is what R178 and R180 say of the trace of an operation, of no step, of a
`Transfer`, a poll, a byte write and command writes; `Costs.append` puts them together, `exec_costs` is all sixteen operations. -/

namespace Sys2Proof.Machine

open Sys2Proof.Safety

/-- A trace performed from `s` has at most `most` bus steps (R180), exactly so many when every sample of up to eight polls is busy,
and the bus steps and delay total `least` when every poll is ready at once with the default delays (R178). -/
structure Costs (s : State) (tokens : List Token) (most : Nat) (least : Nat × Nat) : Prop where
  atMost : tokens.length ≤ most
  allBusy : (∀ k, k < 8 * s.cfg.pollBudget → busyAt s k = true) → tokens.length = most
  ready : defaultDelays s.cfg → readyAtOnce s 8 → (tokens.length, delayTotal tokens) = least

/-- Tokens whose number does not depend on the samples. -/
theorem costs_of_length {s : State} {tokens : List Token} {n d : Nat} (length : tokens.length = n)
    (delays : defaultDelays s.cfg → delayTotal tokens = d) : Costs s tokens n (n, d) :=
  ⟨length.le, fun _ => length, fun hd _ => Prod.ext length (delays hd)⟩

theorem Costs.append {s : State} {l m : List Token} {x y : Nat} {p q : Nat × Nat} (h : Costs s l x p) (g : Costs s m y q) :
    Costs s (l ++ m) (x + y) (p + q) where
  atMost := by rw [List.length_append]; exact Nat.add_le_add h.atMost g.atMost
  allBusy hb := by rw [List.length_append, h.allBusy hb, g.allBusy hb]
  ready hd hr := by rw [List.length_append, delayTotal_append, ← h.ready hd hr, ← g.ready hd hr]; rfl

theorem costs_nil (s : State) : Costs s [] 0 (0, 0) := costs_of_length rfl fun _ => rfl

theorem costs_transfer (s : State) (rs : Bool) (n : Nibble) : Costs s (transferTokens rs n) 7 (7, 3) :=
  costs_of_length rfl fun _ => (transferTokens_counts rs n).2

theorem costs_modeSelect (s : State) : Costs s (modeSelectTokens s.cfg) 34 (34, 66012) := by
  obtain ⟨length, delays⟩ := modeSelectTokens_counts s.cfg
  refine costs_of_length length fun hd => ?_
  obtain ⟨init3, init4, -, -, -⟩ := hd
  rw [delays, init3, init4]

theorem writeTokens_length (s : State) (j : Nat) (rs : Bool) (b : Byte) :
    (writeTokens s j rs b).length = (pollTokens s j).length + 14 := by
  simp only [writeTokens, List.length_append, transferTokens_counts]

section Accepted

variable {s : State} (hw : s.cfg.wf = true)
include hw

/-- A poll makes at most `POLL_BUDGET` passes of at most nine bus steps (R98). -/
theorem pollTokens_length_le (j : Nat) : (pollTokens s j).length ≤ 9 * s.cfg.pollBudget + 6 := by
  obtain ⟨length, -, -, -⟩ := pollTokens_counts s j
  obtain ⟨busyCount, -, most, -, -⟩ := pollCount_cases s j hw
  omega

/-- With every sample busy it makes them all, each of nine. -/
theorem pollTokens_length_of_busy {j : Nat} (hb : ∀ i, i < s.cfg.pollBudget → busyAt s (j + i) = true) :
    pollCount s j = s.cfg.pollBudget ∧ (pollTokens s j).length = 9 * s.cfg.pollBudget + 6 := by
  have timeout : timesOut s j = true := List.all_eq_true.mpr fun i hi => hb i (List.mem_range.mp hi)
  obtain ⟨length, -, -, -⟩ := pollTokens_counts s j
  obtain ⟨busyCount, -, -, wholeBudget, -⟩ := pollCount_cases s j hw
  rw [timeout, if_pos rfl] at busyCount
  have hk := wholeBudget timeout
  exact ⟨hk, by omega⟩

theorem costs_poll : Costs s (pollTokens s 0) (9 * s.cfg.pollBudget + 6) (14, 2) where
  atMost := pollTokens_length_le hw 0
  allBusy hb := (pollTokens_length_of_busy hw fun i hi => by rw [Nat.zero_add]; exact hb i (by omega)).2
  ready hd hr := by
    obtain ⟨-, -, setup, gap, -⟩ := hd
    have first : busyAt s 0 = false := hr 0 (by decide)
    obtain ⟨length, -, -, delays⟩ := pollTokens_counts s 0
    rw [pollCount_of_ready hw first] at length delays
    have noBusy : (List.range 1).countP (fun i => busyAt s (0 + i)) = 0 := by simp [first]
    rw [noBusy] at length delays
    rw [length, delays, setup, gap, Nat.zero_mul]

theorem costs_write (rs : Bool) (b : Byte) : Costs s (writeTokens s 0 rs b) (9 * s.cfg.pollBudget + 20) (28, 8) :=
  ((costs_poll hw).append (costs_transfer s rs _)).append (costs_transfer s rs _)

theorem writesTokens_length_le (bs : List Byte) : ∀ j,
    (writesTokens s j bs).length ≤ bs.length * (9 * s.cfg.pollBudget + 20) := by
  induction bs with
  | nil => exact fun _ => Nat.zero_le _
  | cons b bs ih =>
    intro j
    have poll := pollTokens_length_le hw j
    have rest := ih (j + pollCount s j)
    rw [writesTokens, List.length_append, writeTokens_length, List.length_cons, Nat.add_one_mul]
    omega

/-- Every poll takes the budget of samples, so the next one begins with busy samples too. -/
theorem writesTokens_length_of_busy (bs : List Byte) : ∀ j,
    (∀ i, i < bs.length * s.cfg.pollBudget → busyAt s (j + i) = true) →
    (writesTokens s j bs).length = bs.length * (9 * s.cfg.pollBudget + 20) := by
  induction bs with
  | nil => exact fun _ _ => (Nat.zero_mul _).symm
  | cons b bs ih =>
    intro j hb
    rw [List.length_cons, Nat.add_one_mul] at hb
    obtain ⟨count, poll⟩ := pollTokens_length_of_busy hw (j := j) fun i hi => hb i (by omega)
    have rest := ih (j + s.cfg.pollBudget) fun i hi => by rw [Nat.add_assoc]; exact hb _ (by omega)
    rw [writesTokens, List.length_append, writeTokens_length, count, poll, rest, List.length_cons,
      Nat.add_one_mul bs.length, Nat.add_comm]

theorem costs_writes {bs : List Byte} (hlen : bs.length ≤ 8) :
    Costs s (writesTokens s 0 bs) (bs.length * (9 * s.cfg.pollBudget + 20)) (28 * bs.length, bs.length * 8) where
  atMost := writesTokens_length_le hw bs 0
  allBusy hb := writesTokens_length_of_busy hw bs 0 fun i hi => by
    rw [Nat.zero_add]
    exact hb i (hi.trans_le (Nat.mul_le_mul_right _ hlen))
  ready hd hr := by
    obtain ⟨-, -, setup, gap, -⟩ := hd
    obtain ⟨length, delays⟩ := writesTokens_ready hw bs 0 fun i hi => by rw [Nat.zero_add]; exact hr i (hi.trans_le hlen)
    rw [length, delays, setup, gap]

/-- INIT, and the sequence of the first START with one byte more (R104, R106). -/
theorem costs_sequence {bs : List Byte} (hlen : bs.length ≤ 8) :
    Costs s (modeSelectTokens s.cfg ++ writesTokens s 0 bs) (34 + bs.length * (9 * s.cfg.pollBudget + 20))
      ((34, 66012) + (28 * bs.length, bs.length * 8)) := (costs_modeSelect s).append (costs_writes hw hlen)

/-! ### All sixteen operations -/

variable (hi : s.seq = .idle)
include hi

/-- A START with `INITIALIZED` set is one byte write; else the sequence comes before it (R106). -/
theorem exec_start_costs (a b : Byte) : ∃ t tokens, exec (.start a b) s = .next t ∧ t.seq = .idle ∧
    t.trace = s.trace ++ tokens ∧
    Costs s tokens (mostBusSteps s.cfg s.initialized (.start a b)) (leastSteps s.initialized (.start a b)) := by
  obtain ⟨t, ht, completed, -⟩ := startInitializesOnceThenTurnsOn a b s hw hi
  refine ⟨t, _, ht, completed.seq, completed.trace, ?_⟩
  cases s.initialized with
  | true =>
    have costs := costs_writes hw (bs := [s.cfg.cmdDisplayOn]) (by simp)
    rwa [List.length_singleton, Nat.one_mul] at costs
  | false =>
    have costs := costs_sequence hw (bs := commandBytes s.cfg ++ [s.cfg.cmdDisplayOn]) (by simp [commandBytes])
    have most : 34 + 8 * (9 * s.cfg.pollBudget + 20) = 72 * s.cfg.pollBudget + 194 := by ring
    show Costs s (modeSelectTokens s.cfg ++ writesTokens s 0 (commandBytes s.cfg ++ [s.cfg.cmdDisplayOn]))
      (72 * s.cfg.pollBudget + 194) (258, 66076)
    rw [← most]
    exact costs

theorem exec_init_costs (a b : Byte) : ∃ t tokens, exec (.init a b) s = .next t ∧ t.seq = .idle ∧
    t.trace = s.trace ++ tokens ∧ Costs s tokens (63 * s.cfg.pollBudget + 174) (230, 66068) := by
  obtain ⟨t, ht, completed, -⟩ := initSendsTheWholeSequence a b s hw hi
  have costs := costs_sequence hw (bs := commandBytes s.cfg) (by simp [commandBytes])
  have most : 34 + 7 * (9 * s.cfg.pollBudget + 20) = 63 * s.cfg.pollBudget + 174 := by ring
  exact ⟨t, _, ht, completed.seq, completed.trace, most ▸ costs⟩

/-- Every operation from an idle state has the costs of the tables of R178 and R180. -/
theorem exec_costs (i : Instr) : ∃ t tokens, exec i s = .next t ∧ t.seq = .idle ∧ t.trace = s.trace ++ tokens ∧
    Costs s tokens (mostBusSteps s.cfg s.initialized i) (leastSteps s.initialized i) := by
  cases hres : i.isReserved with
  | true =>
    refine ⟨_, [], reservedCodesCompleteAsIllegal i s hw hi hres, hi, (List.append_nil _).symm, ?_⟩
    cases i with
    | reserved7 | reservedB | reservedC | reservedD | reservedE | reservedF => exact costs_nil s
    | _ => cases hres
  | false =>
    cases i with
    | nop a b => exact ⟨_, [], nopOnlyAcceptsAndCompletes a b s hw hi, hi, (List.append_nil _).symm, costs_nil s⟩
    | init a b => exact exec_init_costs hw hi a b
    | start a b => exact exec_start_costs hw hi a b
    | enable a b =>
      obtain ⟨t, ht, completed, -⟩ := enableTurnsOnTheDisplay a b s hw hi
      exact ⟨t, _, ht, completed.seq, completed.trace, costs_write hw false _⟩
    | wrcmd a b =>
      obtain ⟨t, ht, completed, -⟩ := wrcmdPollsThenSendsTheCommand a b s hw hi
      exact ⟨t, _, ht, completed.seq, completed.trace, costs_write hw false _⟩
    | wrdata a b =>
      obtain ⟨t, ht, completed, -⟩ := wrdataPollsThenSendsTheData a b s hw hi
      exact ⟨t, _, ht, completed.seq, completed.trace, costs_write hw true _⟩
    | setpos a b =>
      rw [mostBusSteps, leastSteps]
      by_cases ha : a ≤ 3#8
      · obtain ⟨t, ht, completed, -⟩ := setposSendsTheCursorCommand a b s hw hi ha
        rw [if_pos ha, if_pos ha]
        exact ⟨t, _, ht, completed.seq, completed.trace, costs_write hw false _⟩
      · have invalid := setposIgnoresAnInvalidRow a b s hw hi (BitVec.not_le.mp ha)
        rw [if_neg ha, if_neg ha]
        exact ⟨_, [], invalid, hi, (List.append_nil _).symm, costs_nil s⟩
    | poll a b =>
      obtain ⟨t, ht, completed, -⟩ := pollReadsUntilReadyOrBudget a b s hw hi
      exact ⟨t, _, ht, completed.seq, completed.trace, costs_poll hw⟩
    | wrnibc a b =>
      obtain ⟨t, ht, completed, -⟩ := wrnibcIsOneControlTransfer a b s hw hi
      exact ⟨t, _, ht, completed.seq, completed.trace, costs_transfer s false _⟩
    | wrnibd a b =>
      obtain ⟨t, ht, completed, -⟩ := wrnibdIsOneDataTransfer a b s hw hi
      exact ⟨t, _, ht, completed.seq, completed.trace, costs_transfer s true _⟩
    | reserved7 | reservedB | reservedC | reservedD | reservedE | reservedF => cases hres

end Accepted

/-- Settles O50: the greatest number of bus steps in `exec_costs`. -/
theorem everyOperationCompletesWithinItsBound : Obligations.EveryOperationCompletesWithinItsBound := by
  intro i s hw hi
  obtain ⟨t, tokens, ht, idle, trace, costs⟩ := exec_costs hw hi i
  exact ⟨t, tokens, ht, idle, trace, costs.atMost, costs.allBusy⟩

/-- Settles O51: the row of the table in `exec_costs`. -/
theorem stepCountsAndDelayTotalsWhenReady : Obligations.StepCountsAndDelayTotalsWhenReady := by
  intro i s hw hi hdelays hready
  obtain ⟨t, tokens, ht, -, trace, costs⟩ := exec_costs hw hi i
  exact ⟨t, tokens, ht, trace, costs.ready hdelays hready⟩

end Sys2Proof.Machine
end

section
/-! SUPPORT. Legal timings of a trace (R77 to R79, O52 to O55): a part of a trace is timed legally by the times from its first position
on (`LegalTiming.part`), so every bound between steps of a routine is read off the routine's own tokens. -/

namespace Sys2Proof.Machine

open Sys2Proof.Safety

theorem LegalTiming.part {before part after : List Token} {t : Nat → ℚ} (h : LegalTiming (before ++ part ++ after) t) :
    LegalTiming part fun i => t (before.length + i) := by
  have length : (before ++ part ++ after).length = before.length + part.length + after.length := by
    simp only [List.length_append]
  refine ⟨fun i hi => h.ordered (before.length + i) (by omega), fun i hi => ?_⟩
  have delayed := h.delayed (before.length + i) (by omega)
  have token : (before ++ part ++ after)[before.length + i + 1]'(by omega) = part[i + 1] := by
    rw [List.getElem_append_left (by rw [List.length_append]; omega), List.getElem_append_right (by omega)]
    congr 1
    omega
  rw [token] at delayed
  exact delayed

/-- The part with the step that follows it. -/
theorem LegalTiming.part_next {before part after : List Token} {t : Nat → ℚ} (h : LegalTiming (before ++ part ++ after) t)
    (hne : after ≠ []) : ∃ tok, LegalTiming (part ++ [tok]) fun i => t (before.length + i) := by
  obtain ⟨tok, rest, rfl⟩ := List.exists_cons_of_ne_nil hne
  exact ⟨tok, LegalTiming.part (after := rest) (by simpa using h)⟩

theorem LegalTiming.left {l m : List Token} {t : Nat → ℚ} (h : LegalTiming (l ++ m) t) : LegalTiming l t := by
  simpa using LegalTiming.part (before := []) h

/-- A delay step keeps the steps around it apart (R79). -/
theorem LegalTiming.delay {l : List Token} {t : Nat → ℚ} (h : LegalTiming l t) (i : Nat) (hi : i + 2 < l.length) :
    t (i + 2) - t i ≥ (l[i + 1].asksUs : ℚ) := le_sub_iff_add_le'.mpr (h.delayed i hi)

/-! ### A transfer (R175) -/

/-- A timing of `Transfer` in which `WriteNibble` and `SetE(1)` take effect together. -/
def leastTransferTiming (i : Nat) : ℚ := if i < 3 then 0 else if i < 6 then 2 else 3

theorem leastTransferTiming_legal (rs : Bool) (n : Nibble) : LegalTiming (transferTokens rs n) leastTransferTiming where
  ordered i hi := by
    have : i < 6 := Nat.lt_of_succ_lt_succ hi
    interval_cases i <;> norm_num [leastTransferTiming]
  delayed i hi := by
    have : i < 5 := Nat.lt_of_add_lt_add_right hi
    interval_cases i <;> norm_num [leastTransferTiming, transferTokens, Token.asksUs]

/-- The two delay steps of a transfer and the steps before and after them. -/
theorem transfer_times {rs : Bool} {n : Nibble} {t : Nat → ℚ} (h : LegalTiming (transferTokens rs n) t) :
    t 3 - t 1 ≥ 2 ∧ t 4 - t 0 ≥ 2 ∧ t 6 - t 4 ≥ 1 := by
  have length := (transferTokens_counts rs n).1
  have setup : t 3 - t 1 ≥ 2 := h.delay 1 (by omega)
  have pulse : t 6 - t 4 ≥ ((1 : Nat) : ℚ) := h.delay 4 (by omega)
  have first : t 0 ≤ t 1 := h.ordered 0 (by omega)
  have rise : t 3 ≤ t 4 := h.ordered 3 (by omega)
  exact ⟨setup, by linarith, by rwa [Nat.cast_one] at pulse⟩

/-- Settles O52: `transfer_times` for the transfer's part of the trace, and a timing with no time before `SetE(1)`. -/
theorem transferSetupAndPulseTimes : Obligations.TransferSetupAndPulseTimes :=
  ⟨fun _ _ _ _ _ h => transfer_times h.part, fun rs n => ⟨leastTransferTiming, leastTransferTiming_legal rs n, rfl⟩⟩

/-! ### A pass of the poll loop (R176) -/

/-- The delays of a pass before the retry delay. -/
theorem pass_times {c : Params} {h : Nibble} {t : Nat → ℚ} (ht : LegalTiming (passTokens c h) t) :
    t 2 - t 0 ≥ c.tPollSetupUs ∧ t 5 - t 3 ≥ c.tPollGapUs ∧ t 7 - t 5 ≥ c.tPollSetupUs := by
  have length : 8 ≤ (passTokens c h).length := by rw [(passTokens_counts c h).1]; exact Nat.le_add_right _ _
  exact ⟨ht.delay 0 (by omega), ht.delay 3 (by omega), ht.delay 5 (by omega)⟩

theorem passTokens_of_busy {c : Params} {h : Nibble} (hb : h.getLsbD 3 = true) :
    passTokens c h = [.e true, .us c.tPollSetupUs, .s h, .e false, .us c.tPollGapUs, .e true, .us c.tPollSetupUs, .e false,
      .us c.tPollRetryUs] := by
  rw [passTokens, if_pos hb]; rfl

/-- After a busy sample the retry delay stands before whatever follows. -/
theorem pass_retry_time {c : Params} {h : Nibble} {t : Nat → ℚ} {tok : Token} (hb : h.getLsbD 3 = true)
    (ht : LegalTiming (passTokens c h ++ [tok]) t) : t 9 - t 7 ≥ c.tPollRetryUs := by
  rw [passTokens_of_busy hb] at ht
  exact ht.delay 7 (by simp)

/-- Settles O53: the pass is a part of the trace, with the step that follows it for the retry delay. -/
theorem pollPassTimes : Obligations.PollPassTimes := by
  intro before after c h t ht p
  obtain ⟨setup, gap, pulse⟩ := pass_times ht.part
  refine ⟨setup, gap, pulse, fun hb hne => ?_⟩
  obtain ⟨tok, hnext⟩ := ht.part_next hne
  exact pass_retry_time hb hnext

/-! ### The mode-select part of INIT (R177) -/

/-- The four delay steps with a step of the part after them. -/
theorem modeSelect_times {c : Params} {t : Nat → ℚ} (h : LegalTiming (modeSelectTokens c) t) :
    t 2 - t 0 ≥ 40000 ∧ t 10 - t 8 ≥ 5000 ∧ t 18 - t 16 ≥ 15000 ∧ t 26 - t 24 ≥ 1000 * (c.tInit3Ms : ℚ) := by
  have length := (modeSelectTokens_counts c).1
  have third : t 26 - t 24 ≥ ((1000 * c.tInit3Ms : Nat) : ℚ) := h.delay 24 (by omega)
  push_cast at third
  exact ⟨h.delay 0 (by omega), h.delay 8 (by omega), h.delay 16 (by omega), third⟩

theorem modeSelect_last_time {c : Params} {t : Nat → ℚ} {tok : Token} (h : LegalTiming (modeSelectTokens c ++ [tok]) t) :
    t 34 - t 32 ≥ 1000 * (c.tInit4Ms : ℚ) := by
  have length := (modeSelectTokens_counts c).1
  have fourth : t 34 - t 32 ≥ ((1000 * c.tInit4Ms : Nat) : ℚ) :=
    h.delay 32 (by rw [List.length_append, length, List.length_singleton]; omega)
  push_cast at fourth
  exact fourth

/-- Settles O54: the sequence is a part of the trace, with the step that follows it for the last delay. -/
theorem initDelayTimes : Obligations.InitDelayTimes := by
  intro before after c t ht p
  obtain ⟨boot, first, second, third⟩ := modeSelect_times ht.part
  refine ⟨boot, first, second, third, fun hne => ?_⟩
  obtain ⟨tok, hnext⟩ := ht.part_next hne
  exact modeSelect_last_time hnext

/-! ### A timed-out poll (R179) -/

/-- The microseconds a pass with a busy sample asks for. -/
def busyPassUs (c : Params) : ℚ := 2 * c.tPollSetupUs + c.tPollGapUs + c.tPollRetryUs

/-- From the first step of a pass with a busy sample to the step that follows it. -/
theorem busyPass_time {c : Params} {h : Nibble} {t : Nat → ℚ} {tok : Token} (hb : h.getLsbD 3 = true)
    (ht : LegalTiming (passTokens c h ++ [tok]) t) : t 9 - t 0 ≥ busyPassUs c := by
  obtain ⟨setup, gap, pulse⟩ := pass_times ht.left
  have retry := pass_retry_time hb ht
  have sample : t 2 ≤ t 3 := ht.ordered 2 (by simp [passTokens])
  rw [busyPassUs]
  linarith

theorem passTokens_length_of_busy {c : Params} {h : Nibble} (hb : h.getLsbD 3 = true) : (passTokens c h).length = 9 := by
  rw [passTokens_of_busy hb]; rfl

/-- The trace of `k` passes. -/
def passesTokens (c : Params) (nibble : Nat → Nibble) (k : Nat) : List Token :=
  (List.range k).flatMap fun i => passTokens c (nibble i)

theorem passesTokens_succ (c : Params) (nibble : Nat → Nibble) (k : Nat) :
    passesTokens c nibble (k + 1) = passesTokens c nibble k ++ passTokens c (nibble k) := by
  rw [passesTokens, List.range_succ, List.flatMap_append, List.flatMap_singleton, passesTokens]

theorem passesTokens_length_of_busy {c : Params} {nibble : Nat → Nibble} (k : Nat)
    (hb : ∀ i, i < k → (nibble i).getLsbD 3 = true) : (passesTokens c nibble k).length = 9 * k := by
  induction k with
  | zero => rfl
  | succ k ih =>
    rw [passesTokens_succ, List.length_append, ih fun i hi => hb i (hi.trans k.lt_succ_self),
      passTokens_length_of_busy (hb k k.lt_succ_self)]
    rfl

/-- `k` passes with busy samples, wherever they stand before a further step. -/
theorem busyPasses_time {before : List Token} {c : Params} {nibble : Nat → Nibble} {t : Nat → ℚ} (k : Nat) :
    ∀ after : List Token, (∀ i, i < k → (nibble i).getLsbD 3 = true) → after ≠ [] →
      LegalTiming (before ++ passesTokens c nibble k ++ after) t →
      t (before.length + 9 * k) - t before.length ≥ k * busyPassUs c := by
  induction k with
  | zero => intro _ _ _ _; simp
  | succ k ih =>
    intro after hb hne ht
    have hbk : ∀ i, i < k → (nibble i).getLsbD 3 = true := fun i hi => hb i (hi.trans k.lt_succ_self)
    rw [passesTokens_succ, ← List.append_assoc] at ht
    have earlier := ih (passTokens c (nibble k) ++ after) hbk (List.append_ne_nil_of_right_ne_nil _ hne)
      (by rwa [List.append_assoc] at ht)
    obtain ⟨tok, hnext⟩ := ht.part_next hne
    have last := busyPass_time (hb k k.lt_succ_self) hnext
    simp only [List.length_append, passesTokens_length_of_busy k hbk, Nat.add_zero] at last
    have next : before.length + 9 * (k + 1) = before.length + 9 * k + 9 := by omega
    rw [next, Nat.cast_succ, add_one_mul]
    linarith

/-- The trace of a poll in its three parts (R91). -/
theorem pollTokens_eq (s : State) (j : Nat) :
    pollTokens s j = [.d 0, .dir .input, .rs false, .rw true] ++
      passesTokens s.cfg (fun i => nibbleAt s (j + i)) (pollCount s j) ++ [.rw false, .dir .output] := rfl

/-- Settles O55: on a timeout every pass of the budget has a busy sample; the last step comes after the passes. -/
theorem timedOutPollTakesItsBudget : Obligations.TimedOutPollTakesItsBudget := by
  intro s t hw timeout ht
  obtain ⟨length, -, -, -⟩ := pollTokens_counts s 0
  obtain ⟨busyCount, -, -, wholeBudget, -⟩ := pollCount_cases s 0 hw
  rw [timeout, if_pos rfl] at busyCount
  have count : pollCount s 0 = s.cfg.pollBudget := wholeBudget timeout
  have busy (i : Nat) (hi : i < pollCount s 0) : (nibbleAt s (0 + i)).getLsbD 3 = true := by
    rw [nibbleAt_busy]
    exact List.all_eq_true.mp timeout i (List.mem_range.mpr (by omega))
  have last := ht.ordered (4 + 9 * pollCount s 0) (by omega)
  rw [pollTokens_eq] at ht
  have passes := busyPasses_time _ _ busy (List.cons_ne_nil _ _) ht
  simp only [List.length_cons, List.length_nil, Nat.zero_add, Nat.reduceAdd] at passes
  rw [show (pollTokens s 0).length - 1 = 4 + 9 * pollCount s 0 + 1 by omega]
  rw [← count]
  rw [busyPassUs] at passes
  linarith

end Sys2Proof.Machine
end
